-- ==== Sys2Proof/Word.lean ====
section
/-! DEFINITION. The words the BRB core is made of: the command word (spec rule R51) and the storage byte (R10). -/

namespace Sys2Proof

/-- A command word: every command is one 32-bit word, bit 31 the most significant (R51). -/
abbrev Word := BitVec 32

/-- A storage byte, `0 <= b < 256`; bit `i` has weight `2^i` and `b[7]` is its most significant bit (R10). -/
abbrev Byte := BitVec 8

end Sys2Proof
end

