-- ==== Sys2Proof/Config.lean ====
section
/-! DEFINITION. The configuration record of a BRB core (spec/00_scope.md section 3), fixed when the block is built (R117).
The fourth open parameter, LATENCY, is no number of the record: it is a free value of State (log 2). -/

namespace Sys2Proof

/-- The implementation parameters of R5 to R7. Every rule holds for every well-formed record; `Config.Wf` of
WellFormed.lean says which those are. -/
structure Config where
  /-- INIT_BYTES, the storage size in bytes after every reset (R6). -/
  initBytes : Nat
  /-- MAX_BYTES, the largest storage in bytes the block can hold (R5). -/
  maxBytes : Nat
  /-- VW, the width in bits of `cmd_value` and `rsp_result` (R7). -/
  vw : Nat
deriving DecidableEq, Repr

/-- The record `State.reset` is built with: INIT_BYTES = 8 and VW = 512 are the defaults of R6 and R7.
MAX_BYTES has no default: 4096 is a DESIGN CHOICE (log 1), the value the spec's test vectors use (R5). -/
def Config.standard : Config := { initBytes := 8, maxBytes := 4096, vw := 512 }

end Sys2Proof
end

