-- ==== Sys2Proof/Syntax.lean ====
section
/-! DEFINITION. The BRB command set, revision 1: one constructor per row of spec/opcode_table.json (R55).
The value operand of WRITE is no part of the word: it travels on `cmd_value` (R58) and is held in State. -/

namespace Sys2Proof

/-- The commands a word can decode to (R63), with their operands as the integers of R56 and R57. -/
inductive Instr where
  /-- WRITE: append the low `bits` bits of the sampled value (R81). -/
  | write (bits : Int)
  /-- READ: remove and return the oldest `bits` bits (R87). -/
  | read (bits : Int)
  /-- PEEK: return the oldest `bits` bits (R88). -/
  | peek (bits : Int)
  /-- SIZE: return the occupied size in bits (R67). -/
  | size
  /-- CLEAR: discard every occupied bit (R68). -/
  | clear
  /-- DBG_BYTE: return one raw storage byte (R90). -/
  | dbgByte (index : Nat)
  /-- DBG_STATE: return the cursors, the capacity and the full flag (R91). -/
  | dbgState
deriving DecidableEq, Repr

end Sys2Proof
end

