-- ==== Sys2Proof/WellFormed.lean ====
section
/-! DEFINITION. Which configurations are BRB cores and which operands a command word can carry. -/

namespace Sys2Proof

/-- A configuration of a BRB core: `1 <= INIT_BYTES <= MAX_BYTES <= 2^28` (R5, R6) and `512 <= VW <= 32767` (R7). -/
abbrev Config.Wf (c : Config) : Prop :=
  1 ≤ c.initBytes ∧ c.initBytes ≤ c.maxBytes ∧ c.maxBytes ≤ 2 ^ 28 ∧ 512 ≤ c.vw ∧ c.vw ≤ 32767

/-- A bit count that the 16-bit two's-complement BITS field can hold (R56). -/
abbrev CountFits (bits : Int) : Prop := -32768 ≤ bits ∧ bits ≤ 32767

/-- A byte index that the 28-bit INDEX field can hold (R57). -/
abbrev IndexFits (index : Nat) : Prop := index < 2 ^ 28

/-- A command whose operands its word can carry (R56, R57); every other term is ill-formed and has no word. -/
def Instr.wellFormed : Instr → Bool
  | .write bits => decide (CountFits bits)
  | .read bits => decide (CountFits bits)
  | .peek bits => decide (CountFits bits)
  | .size => true
  | .clear => true
  | .dbgByte index => decide (IndexFits index)
  | .dbgState => true

end Sys2Proof
end

