-- ==== Sys2Proof/Decode.lean ====
section
/-! DEFINITION. The decoder of R63, total on all 2^32 words, and the encoder of the formats R52 to R55. -/

namespace Sys2Proof

/-- Why a word is ILLEGAL (R59, R60). The host sees one status, ERR_ILLEGAL, for all three (R95). -/
inductive Illegal where
  /-- `OP` is 0b0000 or 0b1000 to 0b1111 (R59). -/
  | reservedOpcode
  /-- A format C word with `cmd_word[27:16] != 0` (R60). -/
  | nonzeroZ12
  /-- A format N word with `cmd_word[27:0] != 0` (R60). -/
  | nonzeroZ28
deriving DecidableEq, Repr

/-- `OP = cmd_word[31:28]` (R51). -/
def opField (w : Word) : BitVec 4 := w.extractLsb' 28 4

/-- The must-be-zero field `Z12 = cmd_word[27:16]` of format C (R52). -/
def z12Field (w : Word) : BitVec 12 := w.extractLsb' 16 12

/-- `BITS = cmd_word[15:0]` of format C (R52). -/
def bitsField (w : Word) : BitVec 16 := w.extractLsb' 0 16

/-- `cmd_word[27:0]`: `Z28` in format N (R53), `INDEX` in format X (R54). -/
def low28Field (w : Word) : BitVec 28 := w.extractLsb' 0 28

/-- `sext_16` of R11: `f - 2^16` if `f[15] = 1`, else `f`. -/
def sext16 (f : BitVec 16) : Int := if f.getLsbD 15 then (f.toNat : Int) - 2 ^ 16 else (f.toNat : Int)

/-- A format C word: its count, unless `Z12` is not zero (R52, R56, R60). -/
def decodeCount (command : Int → Instr) (w : Word) : Except Illegal Instr :=
  if z12Field w = 0 then .ok (command (sext16 (bitsField w))) else .error .nonzeroZ12

/-- A format N word: its command, unless `Z28` is not zero (R53, R60). -/
def decodePlain (command : Instr) (w : Word) : Except Illegal Instr :=
  if low28Field w = 0 then .ok command else .error .nonzeroZ28

/-- The decoder (R63): each word is exactly one command or ILLEGAL. It reads `cmd_word` alone. -/
def decode (w : Word) : Except Illegal Instr :=
  match (opField w).toNat with
  | 1 => decodeCount .write w
  | 2 => decodeCount .read w
  | 3 => decodeCount .peek w
  | 4 => decodePlain .size w
  | 5 => decodePlain .clear w
  | 6 => .ok (.dbgByte (low28Field w).toNat)
  | 7 => decodePlain .dbgState w
  | _ => .error .reservedOpcode

/-- The instruction the decoder reads from an instruction whose bits are `w`: one 32-bit word (R51), every bit above
`nbits` zero. -/
def decodeTableWord (nbits w : Nat) : Option Instr :=
  match decode (BitVec.ofNat 32 (w % 2 ^ nbits)) with
  | .ok i => some i
  | .error _ => none

/-- A format C word with `Z12 = 0` (R52). -/
def countWord (op : BitVec 4) (bits : Int) : Word := op ++ 0#12 ++ BitVec.ofInt 16 bits

/-- A format X word (R54); with a zero index also a format N word (R53). -/
def indexWord (op : BitVec 4) (index : Nat) : Word := op ++ BitVec.ofNat 28 index

/-- The word of a command (R52 to R55). -/
def encode : Instr → Word
  | .write bits => countWord 0b0001 bits
  | .read bits => countWord 0b0010 bits
  | .peek bits => countWord 0b0011 bits
  | .size => indexWord 0b0100 0
  | .clear => indexWord 0b0101 0
  | .dbgByte index => indexWord 0b0110 index
  | .dbgState => indexWord 0b0111 0

/-- The `match` of a command's row in the opcode map (R55): the bits every word of the row has set. -/
def rowMatch : Instr → Word
  | .write _ => 0x10000000
  | .read _ => 0x20000000
  | .peek _ => 0x30000000
  | .size => 0x40000000
  | .clear => 0x50000000
  | .dbgByte _ => 0x60000000
  | .dbgState => 0x70000000

/-- The `mask` of a command's row in the opcode map (R55): the bits the row fixes. -/
def rowMask : Instr → Word
  | .write _ => 0xFFFF0000
  | .read _ => 0xFFFF0000
  | .peek _ => 0xFFFF0000
  | .size => 0xFFFFFFFF
  | .clear => 0xFFFFFFFF
  | .dbgByte _ => 0xF0000000
  | .dbgState => 0xFFFFFFFF

end Sys2Proof
end

