-- ==== Sys2Proof/Machine/State.lean ====
section
/-! DEFINITION. The state of the BRB core, as plain data (spec/10_state.md), and the state right after reset (R30). -/

namespace Sys2Proof.Machine

/-- The status codes of R94. Codes 5 to 7 are reserved and never produced, so they have no constructor (I9, log 17). -/
inductive Status where
  /-- The command completed. -/
  | ok
  /-- Growth needs more storage than MAX_BYTES (R97). -/
  | errAlloc
  /-- The word is no command (R95). -/
  | errIllegal
  /-- `bits > VW` (R96). -/
  | errWidth
  /-- `index >= CAP div 8` (R98). -/
  | errRange
deriving DecidableEq, Repr

/-- What the block samples when it accepts a command (R50): the word and the value operand. -/
structure Command where
  /-- `cmd_word`, 32 bits. -/
  word : Word
  /-- `cmd_value`, a natural below `2^VW` (R58). -/
  value : Nat
deriving DecidableEq, Repr

/-- PHASE (R26). BUSY carries the hidden state of the command in progress (R27): the sampled command and how many
BUSY cycles follow the present one before the response (R113, R114; log 11). -/
inductive Phase where
  | idle
  | busy (command : Command) (left : Nat)
deriving DecidableEq, Repr

/-- What the host drives on the input ports during one cycle (R50). -/
structure PortIn where
  /-- `rst`, synchronous and active high (R111). -/
  rst : Bool
  /-- `cmd_valid`: the host presents a command. -/
  cmdValid : Bool
  /-- `cmd_word`. -/
  cmdWord : Word
  /-- `cmd_value`; the VW wires carry it modulo `2^VW` (log 4). -/
  cmdValue : Nat
deriving DecidableEq, Repr

/-- STORE as a list of (byte index, byte) cells; Ops.lean gives its canonical form and its accesses. -/
abbrev Memory := List Host.Cell

/-- The state. R15 lists everything that persists between commands; the rest are `rsp_valid` (R115), the
configuration record (R5 to R7, log 1) and the model's two environment fields (logs 2, 3). -/
structure State where
  /-- The configuration, fixed for the life of the block (R117). -/
  cfg : Config
  /-- CAP, the capacity in bits (R16). -/
  cap : Nat
  /-- RC, the stream position of the oldest unread bit (R17). -/
  rc : Nat
  /-- WC, the stream position the next written bit goes to (R17). -/
  wc : Nat
  /-- FULL, which tells a full buffer from an empty one when the cursors coincide (R19). -/
  full : Bool
  /-- STORE, the bytes `0 .. CAP div 8 - 1` (R20). -/
  store : Memory
  /-- PHASE, with the command in progress (R26). -/
  phase : Phase
  /-- `rsp_valid`, one in exactly the response cycle of a command (R115). -/
  rspValid : Bool
  /-- RSP_STATUS, the last response's status (R25). -/
  rspStatus : Status
  /-- RSP_RESULT, the last response's result, a natural below `2^VW` (R25). -/
  rspResult : Nat
  /-- The model's own: what the host drives in this cycle and the following ones; past its end the host drives
  nothing (log 3). -/
  inputs : List PortIn
  /-- The model's own free value: `LATENCY - 1` of each command still to be accepted, in acceptance order (R113, log 2). -/
  busyCycles : List Nat
deriving DecidableEq, Repr

/-- What stops the block with a fault: nothing. Every error of the spec is a response after which the next command is
accepted and executed normally (R99), so no step faults and the type has no constructor (safe; log 9). -/
inductive Fault where
deriving DecidableEq, Repr

/-- What the model gives no step for. -/
inductive Refusal where
  /-- Raised by `exec`'s arm of an instruction without a meaning; safe. No arm of this model raises it. -/
  | notModelled (mnemonic : String)
  /-- Raised by `step` when the configuration is one that R5 to R7 exclude: such a thing is not a BRB core
  (R6, I5); safe (log 10). -/
  | notABrbCore
deriving DecidableEq, Repr

/-- The state right after a reset edge (R30, R111), for a configuration and what the host and the implementation do
from then on. -/
def State.resetWith (cfg : Config) (inputs : List PortIn) (busyCycles : List Nat) : State where
  cfg := cfg
  cap := cfg.initBytes * 8
  rc := 0
  wc := 0
  full := false
  store := []
  phase := .idle
  rspValid := false
  rspStatus := .ok
  rspResult := 0
  inputs := inputs
  busyCycles := busyCycles

/-- The machine right after reset (R30): the default configuration (log 1), a host that drives nothing (log 3). -/
def State.reset : State := State.resetWith Config.standard [] []

end Sys2Proof.Machine
end

