-- ==== Sys2Proof/Machine/Ops.lean ====
section
/-! DEFINITION. The named operations over STORE and the response registers: byte and bit access (R12, R34), fields
(R35, R86), the occupied size (R22), `respond` and `raise` (R13). -/

namespace Sys2Proof.Machine

/-! ## Bytes of STORE -/

/-- What a byte of STORE that no cell lists reads as: reset and growth fill storage with 0x00 (R30, R76; log 5). -/
def blankByte : Byte := 0x00

/-- `MemRead(j, 1) = STORE[j]` (R12). -/
def Memory.read : Memory → Nat → Byte
  | [], _ => blankByte
  | (a, b) :: m, j => if a = j then b else Memory.read m j

/-- `MemWrite(j, 1, v)`: `STORE[j] <- v` (R12), keeping the canonical form. -/
def Memory.write : Memory → Nat → Byte → Memory
  | [], j, v => if v = blankByte then [] else [(j, v)]
  | (a, b) :: m, j, v =>
    if j < a then
      if v = blankByte then (a, b) :: m else (j, v) :: (a, b) :: m
    else if j = a then
      if v = blankByte then m else (j, v) :: m
    else (a, b) :: Memory.write m j v

/-- The canonical form: indices strictly rising, no cell equal to what an unlisted byte reads as. -/
def Memory.wf : Memory → Bool
  | [] => true
  | (a, b) :: m => decide (b ≠ blankByte) && m.all (fun c => decide (a < c.1)) && Memory.wf m

/-- No cell at or above `n`: only the first `CAP div 8` bytes are part of the state (R32). -/
def Memory.within (m : Memory) (n : Nat) : Bool := m.all (fun c => decide (c.1 < n))

/-- The storage whose byte `j`, for `j < n`, is `f j`. -/
def Memory.tabulate (n : Nat) (f : Nat → Byte) : Memory :=
  (List.range n).filterMap (fun j => if f j = blankByte then none else some (j, f j))

/-- A byte from the natural it is the low eight bits of (R9, R10). -/
def byteOf (v : Nat) : Byte := BitVec.ofNat 8 v

/-! ## Bits of STORE -/

/-- The bit of a byte at a stream offset: offset 0 is `b[7]`, offset 7 is `b[0]` (R34). -/
def byteBit (b : Byte) (offset : Nat) : Bool := b.getLsbD (7 - offset)

/-- A byte with the bit at a stream offset replaced, every other bit unchanged (R34). -/
def setByteBit (b : Byte) (offset : Nat) (v : Bool) : Byte :=
  if v then b ||| BitVec.twoPow 8 (7 - offset) else b &&& ~~~ BitVec.twoPow 8 (7 - offset)

/-- `SBit(p)` of R34. -/
def Memory.sbit (m : Memory) (p : Nat) : Bool := byteBit (m.read (p / 8)) (p % 8)

/-- `SetSBit(p, b)` of R34. -/
def Memory.setSBit (m : Memory) (p : Nat) (b : Bool) : Memory :=
  m.write (p / 8) (setByteBit (m.read (p / 8)) (p % 8) b)

/-! ## Fields of the stream -/

/-- `Field(p, n)` of R86: the sum of `SBit((p + i) mod CAP) * 2^(n-1-i)` over `i < n`. -/
def Memory.field (m : Memory) (cap p n : Nat) : Nat :=
  ((List.range n).map (fun i => (m.sbit ((p + i) % cap)).toNat * 2 ^ (n - 1 - i))).sum

/-- The field write of R81: bit `n-1-i` of `v` goes to stream position `(p + i) mod CAP`, for `i` from 0 up (R35). -/
def Memory.setField (m : Memory) (cap p n v : Nat) : Memory :=
  (List.range n).foldl (fun m i => m.setSBit ((p + i) % cap) (v.testBit (n - 1 - i))) m

/-! ## Derived quantities -/

/-- `size()` of R22. -/
def State.size (s : State) : Nat := if s.full then s.cap else (s.cap + s.wc - s.rc) % s.cap

/-- The number of bytes of STORE, `CAP div 8` (R20). -/
def State.storeBytes (s : State) : Nat := s.cap / 8

/-! ## Ending a command -/

/-- `respond(status, result)` of R13: the response registers take the new values (R25), `rsp_valid` is one in the
response cycle (R115) and PHASE is IDLE in it (R116). -/
def State.respond (s : State) (status : Status) (result : Nat) : State :=
  { s with phase := .idle, rspValid := true, rspStatus := status, rspResult := result }

/-- `raise E` of R13, the one way an error is taken: no state change of the command is kept, the response carries the
code and result 0 (R99). There is no trap to take and none to return from (R102, R103). -/
def State.raise (s : State) (e : Status) : State := s.respond e 0

end Sys2Proof.Machine
end

