-- ==== Sys2Proof/Machine/Operands.lean ====
section
/-! DEFINITION. The operands of the commands (R56 to R58) and the checks that read only them (R96). -/

namespace Sys2Proof.Machine

/-- What the VW-bit `cmd_value` bus carries of a driven value (R7, R58; log 4). -/
def State.onBus (s : State) (v : Nat) : Nat := v % 2 ^ s.cfg.vw

/-- `value = cmd_value` of the command in progress (R58). Outside a command there is none: 0 then (log 8). -/
def State.operand (s : State) : Nat :=
  match s.phase with
  | .busy c _ => c.value
  | .idle => 0

/-- The width check of WRITE, READ and PEEK: `bits > VW` (R96). -/
def State.tooWide (s : State) (bits : Int) : Bool := decide ((s.cfg.vw : Int) < bits)

/-- `n(bits)` of R86, the clamped length of READ and PEEK. -/
def State.clamped (s : State) (bits : Int) : Nat := if bits ≤ 0 then 0 else min bits.toNat s.size

/-- The index check of DBG_BYTE: `index >= CAP div 8` (R98). -/
def State.outOfRange (s : State) (index : Nat) : Bool := decide (s.storeBytes ≤ index)

end Sys2Proof.Machine
end

