-- ==== Sys2Proof/Machine/Flags.lean ====
section
/-! DEFINITION. The computations of FULL, the only status flag (R19). -/

namespace Sys2Proof.Machine

/-- FULL after a completed WRITE with `bits > 0`: 1 if the new WC equals RC, wherever it crossed the end (R84, C2). -/
def fullAfterWrite (wcNew rc : Nat) : Bool := decide (wcNew = rc)

/-- FULL after a READ with `bits > 0`, also when it moved no bit (R87). -/
def fullAfterRead : Bool := false

/-- FULL after CLEAR, which marks the buffer empty (R68, C1). -/
def fullAfterClear : Bool := false

/-- FULL after growth, before the field write that follows it (R77). -/
def fullAfterGrowth : Bool := false

end Sys2Proof.Machine
end

