-- ==== Sys2Proof/Machine/Debug.lean ====
section
/-! DEFINITION. DBG_BYTE and DBG_STATE (spec/44_debug.md), and the data a host builds the debug view from (R92). -/

namespace Sys2Proof.Machine

/-- DBG_BYTE (R90): ERR_RANGE for an index past the storage, else the raw byte. -/
def execDbgByte (index : Nat) (s : State) : Host.Outcome State Fault Refusal :=
  if s.outOfRange index then .next (s.raise .errRange)
  else .next (s.respond .ok (s.store.read index).toNat)

/-- The packed word of DBG_STATE: RC in bits 31..0, WC in 63..32, CAP in 95..64, FULL in bit 96 (R91). -/
def State.packed (s : State) : Nat := s.rc + s.wc * 2 ^ 32 + s.cap * 2 ^ 64 + s.full.toNat * 2 ^ 96

/-- DBG_STATE (R91). -/
def execDbgState (s : State) : Host.Outcome State Fault Refusal := .next (s.respond .ok s.packed)

/-- A byte's bits in stream order, `b[7]` first (R92). -/
def streamBits (b : Byte) : List Bool := (List.range 8).map (byteBit b)

/-- The rows of the debug view's data: one byte's bits for each byte of STORE (R92). The rendering into characters is
host software (R4(b)). -/
def State.debugRows (s : State) : List (List Bool) :=
  (List.range s.storeBytes).map (fun j => streamBits (s.store.read j))

/-- Where a marker at a stream position stands: the row and the place within it (R92). -/
def markerPlace (p : Nat) : Nat × Nat := (p / 8, p % 8)

end Sys2Proof.Machine
end

