-- ==== Sys2Proof/Machine/Occupancy.lean ====
section
/-! DEFINITION. SIZE and CLEAR (spec/40_occupancy.md). -/

namespace Sys2Proof.Machine

/-- SIZE (R67): answer `size()`, write nothing. -/
def execSize (s : State) : Host.Outcome State Fault Refusal := .next (s.respond .ok s.size)

/-- The effect of CLEAR: `RC <- WC`, `FULL <- 0`; no resize, no zeroing (R68). -/
def State.cleared (s : State) : State := { s with rc := s.wc, full := fullAfterClear }

/-- CLEAR (R68). -/
def execClear (s : State) : Host.Outcome State Fault Refusal := .next (s.cleared.respond .ok 0)

end Sys2Proof.Machine
end

