-- ==== Sys2Proof/Machine/Read.lean ====
section
/-! DEFINITION. READ and PEEK (spec/43_read.md), and the byte-wise form of the field value (R86). -/

namespace Sys2Proof.Machine

/-- The value READ and PEEK return: the `n(bits)` oldest bits, right-aligned (R86). -/
def State.oldest (s : State) (bits : Int) : Nat := s.store.field s.cap s.rc (s.clamped bits)

/-- The end of a READ with `bits > 0`: RC advances by the clamped length, FULL is cleared (R87). -/
def State.advance (s : State) (bits : Int) : State :=
  { s with rc := (s.rc + s.clamped bits) % s.cap, full := fullAfterRead }

/-- READ (R87): ERR_WIDTH first, then the no-op of `bits <= 0`, then the read. -/
def execRead (bits : Int) (s : State) : Host.Outcome State Fault Refusal :=
  if s.tooWide bits then .next (s.raise .errWidth)
  else if bits ≤ 0 then .next (s.respond .ok 0)
  else .next ((s.advance bits).respond .ok (s.oldest bits))

/-- PEEK (R88): the checks and the value of READ, no state change. -/
def execPeek (bits : Int) (s : State) : Host.Outcome State Fault Refusal :=
  if s.tooWide bits then .next (s.raise .errWidth)
  else if bits ≤ 0 then .next (s.respond .ok 0)
  else .next (s.respond .ok (s.oldest bits))

/-! ## The byte-wise form of R86 -/

/-- The leading part: the `L` bits from the cursor on in its byte; `off = 8 - (p mod 8)` (R86). -/
def leadingPart (b : Byte) (off L : Nat) : Nat := b.toNat / 2 ^ (off - L) % 2 ^ L

/-- The middle part: `count` full bytes after byte `b0`, most significant first (R86). -/
def middlePart (m : Memory) (nb b0 count : Nat) : Nat :=
  ((List.range count).map (fun i => (m.read ((b0 + (i + 1)) % nb)).toNat * 2 ^ (8 * (count - (i + 1))))).sum

/-- `Field(p, n)` as the source assembles it: `trailing + middle * 2^tw + leading * 2^(tw + 8*M)` (R86). -/
def Memory.fieldBytes (m : Memory) (cap p n : Nat) : Nat :=
  let nb := cap / 8
  let b0 := p / 8
  let off := 8 - p % 8
  let L := min off n
  let count := (n - L) / 8
  let tw := (n - L) % 8
  (m.read ((b0 + count + 1) % nb)).toNat / 2 ^ (8 - tw) + middlePart m nb b0 count * 2 ^ tw
    + leadingPart (m.read b0) off L * 2 ^ (tw + 8 * count)

end Sys2Proof.Machine
end

