-- ==== Sys2Proof/Machine/Growth.lean ====
section
/-! DEFINITION. Growth, the sub-operation of WRITE (spec/41_growth.md): trigger, target, relocation, edge zeroing and
commit, and one doubling step of the stepwise form (R79). -/

namespace Sys2Proof.Machine

/-- The trigger: `bits + size() > CAP` (R70). -/
def State.mustGrow (s : State) (bits : Nat) : Bool := decide (s.cap < bits + s.size)

/-- Double a capacity until it holds `need` bits, at least once; the first argument bounds the doublings. -/
def doubleUntil : Nat → Nat → Nat → Nat
  | 0, cap, _ => cap
  | fuel + 1, cap, need => if need ≤ 2 * cap then 2 * cap else doubleUntil fuel (2 * cap) need

/-- NEWCAP: `CAP * 2^m` for the least `m >= 1` with `bits + S <= CAP * 2^m` (R71). -/
def State.targetCap (s : State) (bits : Nat) : Nat := doubleUntil (bits + s.size) s.cap (bits + s.size)

/-- The allocation check: `NEWCAP div 8 > MAX_BYTES` (R72). -/
def State.cannotAllocate (s : State) (newCap : Nat) : Bool := decide (s.cfg.maxBytes < newCap / 8)

/-- `k`, the offset of the oldest unread bit within its byte. -/
def State.readOffset (s : State) : Nat := s.rc % 8

/-- `N = ceil((k + S) / 8)`, the number of bytes growth copies (R73). -/
def State.copiedBytes (s : State) : Nat := (s.readOffset + s.size + 7) / 8

/-- Byte `j` of the copied ones: `STORE[(b0 + j) mod OB]` (R73). -/
def State.copiedByte (s : State) (j : Nat) : Byte := s.store.read ((s.rc / 8 + j) % s.storeBytes)

/-- NEW before edge zeroing: the copied bytes (R73), and 0x00 in every other byte (R76). -/
def State.relocated (s : State) : Memory := Memory.tabulate s.copiedBytes s.copiedByte

/-- Edge zeroing of R75: in byte 0 the `k` most significant bits, in byte `e` the `8 - m` least significant bits. -/
def zeroEdges (m : Memory) (rcNew wcNew : Nat) : Memory :=
  let m := m.write 0 (byteOf ((m.read 0).toNat % 2 ^ (8 - rcNew)))
  let e := wcNew / 8
  let b := (m.read e).toNat
  m.write e (byteOf (b - b % 2 ^ (8 - wcNew % 8)))

/-- RC after growth (R74). -/
def State.rcGrown (s : State) : Nat := s.readOffset

/-- WC after growth (R74). -/
def State.wcGrown (s : State) : Nat := s.size + s.readOffset

/-- Growth to a capacity: relocation, rebase, edge zeroing and commit, all at once (R73 to R77). -/
def State.growTo (s : State) (newCap : Nat) : State :=
  { s with
    cap := newCap
    store := zeroEdges s.relocated s.rcGrown s.wcGrown
    rc := s.rcGrown
    wc := s.wcGrown
    full := fullAfterGrowth }

/-- The stepwise form of R79: `m` doublings, each a growth of its own. -/
def State.growStepwise (s : State) : Nat → State
  | 0 => s
  | m + 1 => (s.growTo (2 * s.cap)).growStepwise m

end Sys2Proof.Machine
end

