-- ==== Sys2Proof/Machine/Write.lean ====
section
/-! DEFINITION. WRITE (spec/42_write.md): the normative per-bit form (R81) and the byte-wise form (R82). -/

namespace Sys2Proof.Machine

/-- The end of a WRITE, on the state growth left if it ran: the low `bits` bits of the value go to the stream, WC
advances, FULL is set by R84 (R81). -/
def State.append (s : State) (bits value : Nat) : State :=
  let wcNew := (s.wc + bits) % s.cap
  { s with
    store := s.store.setField s.cap s.wc bits (value % 2 ^ bits)
    wc := wcNew
    full := fullAfterWrite wcNew s.rc }

/-- WRITE with `0 < bits <= VW`: grow if needed and possible, then append (R81, R70 to R77). -/
def State.writeBits (s : State) (bits : Nat) : State :=
  if s.mustGrow bits then
    if s.cannotAllocate (s.targetCap bits) then s.raise .errAlloc
    else ((s.growTo (s.targetCap bits)).append bits s.operand).respond .ok 0
  else (s.append bits s.operand).respond .ok 0

/-- WRITE (R81): ERR_WIDTH first, then the no-op of `bits <= 0`, then the write (priority R100). -/
def execWrite (bits : Int) (s : State) : Host.Outcome State Fault Refusal :=
  if s.tooWide bits then .next (s.raise .errWidth)
  else if bits ≤ 0 then .next (s.respond .ok 0)
  else .next (s.writeBits bits.toNat)

/-! ## The byte-wise form of R82 -/

/-- The leading partial byte, merged into its byte mask-then-or; `off = 8 - (WC mod 8)`, `L` its width (R82). -/
def leadingByte (x : Byte) (off L bits v : Nat) : Byte :=
  byteOf (x.toNat / 2 ^ off * 2 ^ off + v / 2 ^ (bits - L) * 2 ^ (off - L) + x.toNat % 2 ^ (off - L))

/-- The middle bytes from byte number `j` after the leading one, most significant chunk first, `count` of them, when
`rest` bits of the field are left (R82). -/
def middleBytes (m : Memory) (nb b0 v : Nat) : (count rest j : Nat) → Memory
  | 0, _, _ => m
  | count + 1, rest, j =>
    middleBytes (m.write ((b0 + j) % nb) (byteOf (v / 2 ^ (rest - 8) % 256))) nb b0 v count (rest - 8) (j + 1)

/-- The trailing partial byte: the last `rest` bits at the high end of byte `b`, nothing when `rest = 0` (R82). -/
def trailingByte (m : Memory) (b rest v : Nat) : Memory :=
  if rest = 0 then m
  else m.write b (byteOf (v % 2 ^ rest * 2 ^ (8 - rest) + (m.read b).toNat % 2 ^ (8 - rest)))

/-- The field write as the source splits it into leading, middle and trailing bytes (R82). -/
def Memory.setFieldBytes (m : Memory) (cap p bits v : Nat) : Memory :=
  let nb := cap / 8
  let b0 := p / 8
  let off := 8 - p % 8
  let L := min off bits
  let count := (bits - L) / 8
  let m := m.write b0 (leadingByte (m.read b0) off L bits v)
  let m := middleBytes m nb b0 v count (bits - L) 1
  trailingByte m ((b0 + (count + 1)) % nb) ((bits - L) % 8) v

end Sys2Proof.Machine
end

