-- ==== Sys2Proof/Machine/Dispatch.lean ====
section
/-! DEFINITION. What one accepted command does: one arm per row of the opcode map (R55). -/

namespace Sys2Proof.Machine

def exec (i : Instr) (s : State) : Host.Outcome State Fault Refusal :=
  match i with
  | .write bits => Sys2Proof.Machine.execWrite bits s
  | .read bits => Sys2Proof.Machine.execRead bits s
  | .peek bits => Sys2Proof.Machine.execPeek bits s
  | .size => Sys2Proof.Machine.execSize s
  | .clear => Sys2Proof.Machine.execClear s
  | .dbgByte index => Sys2Proof.Machine.execDbgByte index s
  | .dbgState => Sys2Proof.Machine.execDbgState s

end Sys2Proof.Machine
end

