-- ==== Sys2Proof/Machine/Handshake.lean ====
section
/-! DEFINITION. The ports and the command protocol, one rising clock edge at a time (R50, R111 to R116). -/

namespace Sys2Proof.Machine

/-- A host that drives nothing: no reset, no command (log 3). -/
def PortIn.quiet : PortIn := { rst := false, cmdValid := false, cmdWord := 0, cmdValue := 0 }

/-- What the host drives in the present cycle. -/
def State.driven (s : State) : PortIn := s.inputs.headD PortIn.quiet

/-- The output ports (R50). -/
structure PortOut where
  /-- `cmd_ready`: one exactly when PHASE is IDLE (R26, R114). -/
  cmdReady : Bool
  /-- `rsp_valid` (R115). -/
  rspValid : Bool
  /-- `rsp_status`, the 3-bit code. -/
  rspStatus : BitVec 3
  /-- `rsp_result`. -/
  rspResult : Nat
deriving DecidableEq, Repr

/-- The status codes on `rsp_status[2:0]` (R94). -/
def Status.code : Status → BitVec 3
  | .ok => 0
  | .errAlloc => 1
  | .errIllegal => 2
  | .errWidth => 3
  | .errRange => 4

/-- `cmd_ready` (R26). -/
def State.cmdReady (s : State) : Bool :=
  match s.phase with
  | .idle => true
  | .busy _ _ => false

/-- What the block drives on its output ports in the present cycle (R50, R114, R115). -/
def State.outputs (s : State) : PortOut :=
  { cmdReady := s.cmdReady, rspValid := s.rspValid, rspStatus := s.rspStatus.code, rspResult := s.rspResult }

/-- The reset edge (R111): every register of the block takes its value of R30, whatever the phase (R112). The host and
the implementation's latencies are no registers and stay (log 15). -/
def State.resetEdge (s : State) : State := State.resetWith s.cfg s.inputs s.busyCycles

/-- The command in progress runs as one atomic transition (R27, R41) and answers: decode first (R100), ERR_ILLEGAL for
an ILLEGAL word (R95). -/
def State.finish (s : State) (c : Command) : Host.Outcome State Fault Refusal :=
  match decode c.word with
  | .ok i => exec i s
  | .error _ => .next (s.raise .errIllegal)

/-- What the block samples from the ports at an accepting edge (R50). -/
def State.sampled (s : State) (p : PortIn) : Command :=
  { word := p.cmdWord, value := s.onBus p.cmdValue }

/-- An accepting edge (R114): with LATENCY = 1 the response is in the next cycle (R113), else PHASE is BUSY for the
LATENCY - 1 cycles before it. -/
def State.accept (s : State) (c : Command) : Host.Outcome State Fault Refusal :=
  let t : State := { s with rspValid := false, busyCycles := s.busyCycles.tail, phase := .busy c 0 }
  match s.busyCycles.headD 0 with
  | 0 => t.finish c
  | left + 1 => .next { t with phase := .busy c left }

/-- One rising edge of `clk` with the given port values (R111 to R116). -/
def State.clockEdge (s : State) (p : PortIn) : Host.Outcome State Fault Refusal :=
  if p.rst then .next s.resetEdge
  else match s.phase with
    | .busy c 0 => s.finish c
    | .busy c (left + 1) => .next { s with phase := .busy c left, rspValid := false }
    | .idle => if p.cmdValid then s.accept (s.sampled p) else .next { s with rspValid := false }

/-- One cycle: the edge that ends it sees what the host drives in it, and the host goes on to its next cycle. -/
def State.cycle (s : State) : Host.Outcome State Fault Refusal :=
  State.clockEdge { s with inputs := s.inputs.tail } s.driven

/-- The host's presentation of one command in the present cycle, everything else it drives unchanged. -/
def State.presenting (s : State) (w : Word) : State :=
  { s with inputs := { s.driven with rst := false, cmdValid := true, cmdWord := w } :: s.inputs.tail }

end Sys2Proof.Machine
end

