-- ==== Sys2Proof/Machine/Step.lean ====
section
/-! DEFINITION. The step: one clock cycle of a BRB core. -/

namespace Sys2Proof.Machine

/-- One rising edge of `clk`. A configuration that is no BRB core is refused by name (R6, I5). -/
def step (s : State) : Host.Outcome State Fault Refusal :=
  if s.cfg.Wf then s.cycle else .refused .notABrbCore

/-- The state in which the host presents the command word whose bits are `w` (the bits above `nbits` zero) in the
present cycle, and the block accepts it and answers at the edge that ends it: PHASE is IDLE and its LATENCY is 1.
It stands for the host's act of issuing a command (log 3). -/
def State.withFetchWord (s : State) (nbits w : Nat) : State :=
  let s := s.presenting (BitVec.ofNat 32 (w % 2 ^ nbits))
  { s with phase := .idle, busyCycles := 0 :: s.busyCycles.tail }

end Sys2Proof.Machine
end

