-- ==== Sys2Proof/Machine/Assembler.lean ====
section
/-! DEFINITION. The assembly syntax and its bus values (R64, R65). An assembler is host software; the block never sees
a line of text. A line is a list of characters. -/

namespace Sys2Proof.Machine

/-- One assembly command with its operands as written (R64). -/
inductive Asm where
  | write (value : Nat) (bits : Int)
  | read (bits : Int)
  | peek (bits : Int)
  | size
  | clear
  | dbgByte (index : Nat)
  | dbgState
deriving DecidableEq, Repr

/-- Why an assembler refuses a line (R64). -/
inductive AsmError where
  /-- No mnemonic of R64. -/
  | unknownMnemonic
  /-- The operands are not those of the mnemonic's signature, or no literals of its syntax. -/
  | badOperands
  /-- An operand outside its range; it is never truncated. -/
  | outOfRange
deriving DecidableEq, Repr

/-- The command a line stands for. -/
def Asm.instr : Asm → Instr
  | .write _ bits => .write bits
  | .read bits => .read bits
  | .peek bits => .peek bits
  | .size => .size
  | .clear => .clear
  | .dbgByte index => .dbgByte index
  | .dbgState => .dbgState

/-- The value a line drives on `cmd_value`: the operand of WRITE, 0 for every other command (R65). -/
def Asm.value : Asm → Nat
  | .write value _ => value
  | .read _ => 0
  | .peek _ => 0
  | .size => 0
  | .clear => 0
  | .dbgByte _ => 0
  | .dbgState => 0

/-- The ranges of the operands (R64). -/
def Asm.inRange (c : Config) (a : Asm) : Bool := a.instr.wellFormed && decide (a.value < 2 ^ c.vw)

/-- `cmd_word` as the sum R65 gives. -/
def Asm.busWord : Asm → Nat
  | .write _ bits => 0x10000000 + (bits % 2 ^ 16).toNat
  | .read bits => 0x20000000 + (bits % 2 ^ 16).toNat
  | .peek bits => 0x30000000 + (bits % 2 ^ 16).toNat
  | .size => 0x40000000
  | .clear => 0x50000000
  | .dbgByte index => 0x60000000 + index
  | .dbgState => 0x70000000

/-- Assembly to bus values: `cmd_word` and `cmd_value` (R65); an operand outside its range is refused (R64). -/
def Asm.assemble (c : Config) (a : Asm) : Except AsmError (Word × Nat) :=
  if a.inRange c then .ok (BitVec.ofNat 32 a.busWord, a.value) else .error .outOfRange

/-! ## Lines of text -/

/-- The blanks that may stand around a mnemonic and its operands (log 16). -/
def isBlank (c : Char) : Bool := c == ' ' || c == '\t'

/-- A piece of text without the blanks at its two ends. -/
def trimBlanks (cs : List Char) : List Char :=
  ((cs.dropWhile isBlank).reverse.dropWhile isBlank).reverse

/-- The part of a line before its comment: `;` starts one (R64). -/
def stripComment (cs : List Char) : List Char := cs.takeWhile (fun c => c != ';')

/-- The pieces of a text between its commas, the first one collected backwards in the accumulator. -/
def splitCommas (piece : List Char) : List Char → List (List Char)
  | [] => [piece.reverse]
  | c :: cs => if c == ',' then piece.reverse :: splitCommas [] cs else splitCommas (c :: piece) cs

/-- A digit's value, letters in either case. -/
def digitValue (c : Char) : Nat :=
  let n := c.toNat
  if 48 ≤ n ∧ n ≤ 57 then n - 48
  else if 65 ≤ n ∧ n ≤ 70 then n - 55
  else if 97 ≤ n ∧ n ≤ 102 then n - 87
  else 16

/-- The natural that digits of a base stand for; none for an empty text or a character that is no digit of it. -/
def digits (base : Nat) : List Char → Option Nat
  | [] => none
  | c :: cs => (c :: cs).foldl
      (fun acc d => acc.bind (fun n => if digitValue d < base then some (n * base + digitValue d) else none)) (some 0)

/-- `<index>`: a decimal or hexadecimal natural (R64). -/
def parseIndex : List Char → Option Nat
  | '0' :: 'x' :: cs => digits 16 cs
  | cs => digits 10 cs

/-- `<value>`: a decimal, `0x` hexadecimal or `0b` binary natural (R64). -/
def parseValue : List Char → Option Nat
  | '0' :: 'b' :: cs => digits 2 cs
  | cs => parseIndex cs

/-- `<bits>`: a decimal integer, optionally negative (R64). -/
def parseBits : List Char → Option Int
  | '-' :: cs => (digits 10 cs).map (fun n => -(n : Int))
  | cs => (digits 10 cs).map (fun n => (n : Int))

/-- An operand's command, or the refusal of a text that is no literal of its syntax. -/
def orBad (a : Option Asm) : Except AsmError Asm :=
  match a with
  | some a => .ok a
  | none => .error .badOperands

/-- The mnemonics of R64 in their canonical spelling. -/
def mnemonicWRITE : List Char := ['W', 'R', 'I', 'T', 'E']
def mnemonicREAD : List Char := ['R', 'E', 'A', 'D']
def mnemonicPEEK : List Char := ['P', 'E', 'E', 'K']
def mnemonicSIZE : List Char := ['S', 'I', 'Z', 'E']
def mnemonicCLEAR : List Char := ['C', 'L', 'E', 'A', 'R']
def mnemonicDBGBYTE : List Char := ['D', 'B', 'G', '_', 'B', 'Y', 'T', 'E']
def mnemonicDBGSTATE : List Char := ['D', 'B', 'G', '_', 'S', 'T', 'A', 'T', 'E']

/-- A mnemonic, already in upper case, with its operands' texts (R64). -/
def parseCommand (m : List Char) (operands : List (List Char)) : Except AsmError Asm :=
  if m = mnemonicWRITE then
    match operands with
    | [v, n] => orBad ((parseValue v).bind (fun v => (parseBits n).map (fun n => Asm.write v n)))
    | _ => .error .badOperands
  else if m = mnemonicREAD then
    match operands with
    | [n] => orBad ((parseBits n).map Asm.read)
    | _ => .error .badOperands
  else if m = mnemonicPEEK then
    match operands with
    | [n] => orBad ((parseBits n).map Asm.peek)
    | _ => .error .badOperands
  else if m = mnemonicDBGBYTE then
    match operands with
    | [n] => orBad ((parseIndex n).map Asm.dbgByte)
    | _ => .error .badOperands
  else if m = mnemonicSIZE then
    if operands = [] then .ok .size else .error .badOperands
  else if m = mnemonicCLEAR then
    if operands = [] then .ok .clear else .error .badOperands
  else if m = mnemonicDBGSTATE then
    if operands = [] then .ok .dbgState else .error .badOperands
  else .error .unknownMnemonic

/-- One line: its command, or none for a line that is blank but for a comment (R64). Mnemonics are case-insensitive. -/
def parseLine (line : List Char) : Except AsmError (Option Asm) :=
  let text := trimBlanks (stripComment line)
  let mnemonic := (text.takeWhile (fun c => !isBlank c)).map Char.toUpper
  let rest := trimBlanks (text.dropWhile (fun c => !isBlank c))
  if text = [] then .ok none
  else
    match parseCommand mnemonic (if rest = [] then [] else (splitCommas [] rest).map trimBlanks) with
    | .ok a => .ok (some a)
    | .error e => .error e

end Sys2Proof.Machine
end

