-- ==== Sys2Proof/Machine/GrowthFsm.lean ====
section
/-! DEFINITION. The reference growth FSM of R80. Its phases are hidden state and any internal steps are allowed, so the
block's `step` uses `growTo` of Growth.lean and this FSM stands beside it as the reference (log 14). -/

namespace Sys2Proof.Machine

/-- The states of the reference FSM (R80), and its three exits. -/
inductive GrowthPhase where
  /-- G_CHECK. -/
  | check
  /-- G_SIZE, with the capacity doubled so far. -/
  | sizing (newCap : Nat)
  /-- G_ALLOC, with the target capacity. -/
  | alloc (newCap : Nat)
  /-- G_COPY, with byte `j` the next to copy into NEW. -/
  | copy (newCap j : Nat) (new : Memory)
  /-- G_ZERO. -/
  | zero (newCap : Nat) (new : Memory)
  /-- G_COMMIT. -/
  | commit (newCap : Nat) (new : Memory)
  /-- The exit to the field write, with the state it starts from. -/
  | fieldWrite (start : State)
  /-- The exit to IDLE with ERR_ALLOC, state unchanged. -/
  | failed
deriving DecidableEq, Repr

/-- One action of the reference FSM, for a WRITE of `bits` bits on state `s` (R80). -/
def State.growthAction (s : State) (bits : Nat) : GrowthPhase → GrowthPhase
  | .check => if bits + s.size ≤ s.cap then .fieldWrite s else .sizing (2 * s.cap)
  | .sizing newCap => if newCap < bits + s.size then .sizing (2 * newCap) else .alloc newCap
  | .alloc newCap => if s.cannotAllocate newCap then .failed else .copy newCap 0 []
  | .copy newCap j new =>
    if j < s.copiedBytes then .copy newCap (j + 1) (new.write j (s.copiedByte j)) else .zero newCap new
  | .zero newCap new => .commit newCap (zeroEdges new s.rcGrown s.wcGrown)
  | .commit newCap new =>
    .fieldWrite { s with cap := newCap, store := new, rc := s.rcGrown, wc := s.wcGrown, full := fullAfterGrowth }
  | .fieldWrite start => .fieldWrite start
  | .failed => .failed

/-- The FSM after `n` actions. -/
def State.growthRun (s : State) (bits : Nat) : Nat → GrowthPhase → GrowthPhase
  | 0, g => g
  | n + 1, g => s.growthRun bits n (s.growthAction bits g)

end Sys2Proof.Machine
end

