-- ==== Sys2Proof/Machine/Program.lean ====
section
/-! DEFINITION. Programs, their runs and what is observed of them (R121), and the host that issues one through the
ports (R119). -/

namespace Sys2Proof.Machine

/-- One response (R121): the status and the result. -/
structure Response where
  status : Status
  result : Nat
deriving DecidableEq, Repr

/-- The response the registers hold (R25). -/
def State.response (s : State) : Response := { status := s.rspStatus, result := s.rspResult }

/-- One command as a whole, from the state the previous one left to the state its response leaves, taking no time: the
response is the next event after the command (R113). -/
def State.perform (s : State) (c : Command) : Host.Outcome State Fault Refusal :=
  State.finish { s with rspValid := false, phase := .busy c 0 } c

/-- The run of a program: its commands in order, each after the previous response. It answers the responses and the
state at the last one (R121); a refusal ends it. -/
def State.runProgram (s : State) : List Command → Option (List Response × State)
  | [] => some ([], s)
  | c :: cs =>
    match s.perform c with
    | .next t => (t.runProgram cs).map (fun r => (t.response :: r.1, r.2))
    | .fault _ => none
    | .refused _ => none

/-- The part of a state that R121 lets an observer of a program see. -/
structure Buffer where
  cap : Nat
  rc : Nat
  wc : Nat
  full : Bool
  store : Memory
deriving DecidableEq, Repr

/-- `CAP`, `RC`, `WC`, `FULL` and `STORE` of a state (R121). -/
def State.buffer (s : State) : Buffer :=
  { cap := s.cap, rc := s.rc, wc := s.wc, full := s.full, store := s.store }

/-- The cycles in which a host presents one command and then waits out `left` BUSY cycles, presenting nothing (R119). -/
def issue (c : Command) (left : Nat) : List PortIn :=
  { rst := false, cmdValid := true, cmdWord := c.word, cmdValue := c.value } :: List.replicate left PortIn.quiet

/-- The cycles in which a host issues a program, each command with the number of BUSY cycles its LATENCY costs. -/
def issueAll (cs : List (Command × Nat)) : List PortIn := cs.flatMap (fun c => issue c.1 c.2)

/-- `n` cycles, one step each. -/
def State.cycles (s : State) : Nat → Host.Outcome State Fault Refusal
  | 0 => .next s
  | n + 1 =>
    match step s with
    | .next t => t.cycles n
    | .fault r => .fault r
    | .refused r => .refused r

/-- `n` cycles, stopping at a refusal, with the responses seen on the ports: one for each cycle whose edge leaves
`rsp_valid` one (R115). -/
def State.watch (s : State) : Nat → Option (List Response × State)
  | 0 => some ([], s)
  | n + 1 =>
    match step s with
    | .next t => (t.watch n).map (fun r => (if t.rspValid then t.response :: r.1 else r.1, r.2))
    | .fault _ => none
    | .refused _ => none

end Sys2Proof.Machine
end

