-- ==== Sys2Proof/Safety.lean ====
section
/-! DEFINITION. The terms statements about the machine use: the invariants of R21, the stream of occupied bits (R23)
and what a host can tell two states apart by (R24). -/

namespace Sys2Proof.Machine

/-- A legal capacity: `INIT_BYTES * 8 * 2^m` for a natural `m`, at most `MAX_BYTES * 8` (R16). -/
def LegalCap (c : Config) (cap : Nat) : Prop :=
  (∃ m, cap = c.initBytes * 8 * 2 ^ m) ∧ cap ≤ c.maxBytes * 8

/-- The invariants: a BRB core's configuration (R5 to R7), (I1) to (I4) of R21 with the storage in canonical form
(R32), and what R25, R58, R99 and R114 say of the response registers and of a command in progress. -/
structure State.Inv (s : State) : Prop where
  /-- R5 to R7. -/
  config : s.cfg.Wf
  /-- (I2): `CAP` is legal. -/
  legalCap : LegalCap s.cfg s.cap
  /-- (I1). -/
  rcInRange : s.rc < s.cap
  /-- (I1). -/
  wcInRange : s.wc < s.cap
  /-- (I3). -/
  fullCursors : s.full = true → s.rc = s.wc
  /-- (I4). -/
  sizeBound : s.size ≤ s.cap
  /-- The canonical form of the storage. -/
  storeWf : s.store.wf = true
  /-- (I2): the storage has `CAP div 8` bytes, none beyond (R32). -/
  storeWithin : s.store.within s.storeBytes = true
  /-- `RSP_RESULT` is VW bits wide (R25). -/
  resultFits : s.rspResult < 2 ^ s.cfg.vw
  /-- An error's result is 0 (R99). -/
  errorResult : s.rspStatus ≠ .ok → s.rspResult = 0
  /-- The sampled value is VW bits wide (R58). -/
  operandFits : s.operand < 2 ^ s.cfg.vw
  /-- No response in a BUSY cycle (R114, R115). -/
  busySilent : s.cmdReady = false → s.rspValid = false

/-- The occupied bits in stream order, the oldest first: positions `(RC + i) mod CAP` for `i < size()` (R23). -/
def State.contents (s : State) : List Bool :=
  (List.range s.size).map (fun i => s.store.sbit ((s.rc + i) % s.cap))

/-- The `n` low bits of a value, most significant first: a field in stream order (R35). -/
def fieldBits (n v : Nat) : List Bool := (List.range n).map (fun i => v.testBit (n - 1 - i))

/-- The number whose bits, most significant first, are these: the value of a field (R35). -/
def bitsValue (bs : List Bool) : Nat := bs.foldl (fun acc b => 2 * acc + b.toNat) 0

/-- The same but for the content of unoccupied storage bits, which no rule of the FIFO contract may depend on (R24). -/
structure SameStream (s t : State) : Prop where
  /-- Every field but the storage is the same. -/
  fields : t = { s with store := t.store }
  /-- The occupied bits are the same. -/
  occupied : t.contents = s.contents

/-- The commands of the FIFO contract; DBG_BYTE and DBG_STATE are "not part of the core contract" (R93). -/
def inContract : Instr → Bool
  | .write _ => true
  | .read _ => true
  | .peek _ => true
  | .size => true
  | .clear => true
  | .dbgByte _ => false
  | .dbgState => false

/-- The ILLEGAL words of R95, read as numbers (R10): `OP` is 0 or at least 8, or a format C word has
`cmd_word[27:16] != 0`, or a format N word has `cmd_word[27:0] != 0`. -/
def IllegalWord (w : Word) : Prop :=
  let op := w.toNat / 2 ^ 28
  op = 0 ∨ 8 ≤ op ∨
    ((op = 1 ∨ op = 2 ∨ op = 3) ∧ w.toNat / 2 ^ 16 % 2 ^ 12 ≠ 0) ∨
    ((op = 4 ∨ op = 5 ∨ op = 7) ∧ w.toNat % 2 ^ 28 ≠ 0)

/-- The count a format C word carries, read as a number: two's complement of its low 16 bits (R11, R56). -/
def countOf (w : Word) : Int :=
  if w.toNat % 2 ^ 16 < 2 ^ 15 then ((w.toNat % 2 ^ 16 : Nat) : Int) else ((w.toNat % 2 ^ 16 : Nat) : Int) - 2 ^ 16

/-- `m` is the number of doublings of R71: the least `m >= 1` with `need <= cap * 2^m`. -/
def LeastDoubling (cap need m : Nat) : Prop :=
  1 ≤ m ∧ need ≤ cap * 2 ^ m ∧ ∀ j, 1 ≤ j → j < m → cap * 2 ^ j < need

/-- The command of a WRITE with its value, as the host drives it (R65). -/
def writeCommand (w : Nat × Nat) : Command := { word := encode (.write (w.2 : Int)), value := w.1 }

/-- The command of a READ of as many bits as a (value, bits) pair names. -/
def readCommand (w : Nat × Nat) : Command := { word := encode (.read (w.2 : Int)), value := 0 }

/-- The reset edge never comes in these cycles. -/
def noReset (ps : List PortIn) : Bool := ps.all (fun p => !p.rst)

end Sys2Proof.Machine
end

