-- ==== Sys2Proof/Certificates/Slice0/Obligations.lean ====
section
/-! DEFINITION. The statements for the provers, taken from the numbered rules of spec/. Unless a premise says otherwise
each holds in every state, with any configuration. -/

open Sys2Proof
open Sys2Proof.Machine

/-! ## Reset -/

/-- R30: what holds after reset and before any command. -/
def Obligations.ResetLeavesEmptyBuffer : Prop :=
  ∀ (cfg : Config) (inputs : List PortIn) (busyCycles : List Nat),
    let s := State.resetWith cfg inputs busyCycles
    s.cap = cfg.initBytes * 8 ∧ s.rc = 0 ∧ s.wc = 0 ∧ s.full = false ∧ (∀ j, s.store.read j = 0x00) ∧
      s.phase = .idle ∧ s.rspStatus.code = 0 ∧ s.rspResult = 0 ∧ s.rspValid = false

/-- R111, R112: a reset edge, whatever the phase and whatever command is presented or in progress, gives the reset
state: no response, no effect of the command, nothing accepted. -/
def Obligations.ResetEdgeAbortsAnyCommand : Prop :=
  ∀ s : State, s.cfg.Wf → s.driven.rst = true → ∃ t, step s = .next t ∧
    t = { cfg := s.cfg, cap := s.cfg.initBytes * 8, rc := 0, wc := 0, full := false, store := [], phase := .idle,
          rspValid := false, rspStatus := .ok, rspResult := 0, inputs := t.inputs, busyCycles := t.busyCycles } ∧
    ∀ j, t.store.read j = 0x00

/-- The invariants of R21 hold at reset, for every configuration of a BRB core; the one of `State.reset` is the model's
choice (log 1). -/
def Obligations.ResetMeetsInvariants : Prop :=
  (∀ (cfg : Config) (inputs : List PortIn) (busyCycles : List Nat),
    cfg.Wf → (State.resetWith cfg inputs busyCycles).Inv) ∧ State.reset.Inv

/-! ## Words -/

/-- R63: the decoder's pseudocode, each field read as a number. -/
def Obligations.DecoderFollowsItsPseudocode : Prop :=
  ∀ w : Word,
    let op := w.toNat / 2 ^ 28
    let z12 := w.toNat / 2 ^ 16 % 2 ^ 12
    let low := w.toNat % 2 ^ 28
    (op = 1 → z12 = 0 → decode w = .ok (.write (countOf w))) ∧
    (op = 2 → z12 = 0 → decode w = .ok (.read (countOf w))) ∧
    (op = 3 → z12 = 0 → decode w = .ok (.peek (countOf w))) ∧
    (op = 4 → low = 0 → decode w = .ok .size) ∧
    (op = 5 → low = 0 → decode w = .ok .clear) ∧
    (op = 6 → decode w = .ok (.dbgByte low)) ∧
    (op = 7 → low = 0 → decode w = .ok .dbgState) ∧
    (IllegalWord w ↔ ∃ e, decode w = .error e)

/-- A few words written out from the formats R52 to R54 decode to the commands they stand for. -/
def Obligations.SampleWordsDecode : Prop :=
  decode 0b00010000000000000000000000000111#32 = .ok (.write 7) ∧
  decode 0b00100000000000001111111111111111#32 = .ok (.read (-1)) ∧
  decode 0b00110000000000000000000000000011#32 = .ok (.peek 3) ∧
  decode 0b01000000000000000000000000000000#32 = .ok .size ∧
  decode 0b01010000000000000000000000000000#32 = .ok .clear ∧
  decode 0b01100000000000000000000000001000#32 = .ok (.dbgByte 8) ∧
  decode 0b01110000000000000000000000000000#32 = .ok .dbgState

/-- The encoding table loses no operand: a well-formed command decodes back from its word. -/
def Obligations.DecodeInvertsEncode : Prop :=
  ∀ i : Instr, i.wellFormed = true → decode (encode i) = .ok i

/-- No two words decode to one command, and no word to an ill-formed one. -/
def Obligations.EncodeInvertsDecode : Prop :=
  ∀ (w : Word) (i : Instr), decode w = .ok i → i.wellFormed = true ∧ encode i = w

/-- The assembler of R64 and R65 drives the word that decodes to its line's command, and refuses a line with an
operand outside its range. -/
def Obligations.AssemblerDrivesTheCommandsWord : Prop :=
  ∀ (c : Config) (a : Asm),
    (a.instr.wellFormed = true → a.value < 2 ^ c.vw →
      a.assemble c = .ok (encode a.instr, a.value) ∧ (encode a.instr).toNat = a.busWord) ∧
    (a.instr.wellFormed = false ∨ 2 ^ c.vw ≤ a.value → a.assemble c = .error .outOfRange)

/-! ## The step and the ports -/

/-- A step runs the decoded command: with LATENCY 1 at the accepting edge, with a longer one at the edge that ends the
last BUSY cycle. Around `exec` the step moves the host's list on, takes the command's latency and drops `rsp_valid`; what
happens to these two environment fields is the model's choice (logs 2, 3), as is the bus modulo `2^VW` (log 4). -/
def Obligations.StepRunsTheDecodedCommand : Prop :=
  (∀ (s : State) (i : Instr), s.cfg.Wf → s.phase = .idle → s.driven.rst = false → s.driven.cmdValid = true →
    s.busyCycles.headD 0 = 0 → decode s.driven.cmdWord = .ok i →
    step s = exec i { s with
      inputs := s.inputs.tail, busyCycles := s.busyCycles.tail, rspValid := false,
      phase := .busy { word := s.driven.cmdWord, value := s.driven.cmdValue % 2 ^ s.cfg.vw } 0 }) ∧
  (∀ (s : State) (i : Instr) (c : Command), s.cfg.Wf → s.phase = .busy c 0 → s.driven.rst = false →
    decode c.word = .ok i → step s = exec i { s with inputs := s.inputs.tail })

/-- `withFetchWord` is the host issuing one command: the next step runs it on an otherwise unchanged state (log 3). -/
def Obligations.StepRunsTheFetchWord : Prop :=
  ∀ (s : State) (w : Nat) (i : Instr), s.cfg.Wf → decodeTableWord 32 w = some i →
    step (s.withFetchWord 32 w) = exec i { s with
      inputs := s.inputs.tail, busyCycles := s.busyCycles.tail, rspValid := false,
      phase := .busy { word := BitVec.ofNat 32 w, value := s.driven.cmdValue % 2 ^ s.cfg.vw } 0 }

/-- R95: an ILLEGAL word answers ERR_ILLEGAL with result 0 and changes nothing else, in every state that accepts it. -/
def Obligations.IllegalWordsAnswerErrIllegal : Prop :=
  (∀ s : State, s.cfg.Wf → s.phase = .idle → s.driven.rst = false → s.driven.cmdValid = true →
    s.busyCycles.headD 0 = 0 → IllegalWord s.driven.cmdWord → ∃ t, step s = .next t ∧
    t = { s with
      phase := .idle, rspValid := true, rspStatus := .errIllegal, rspResult := 0,
      inputs := t.inputs, busyCycles := t.busyCycles }) ∧
  (∀ (s : State) (c : Command), s.cfg.Wf → s.phase = .busy c 0 → s.driven.rst = false → IllegalWord c.word →
    ∃ t, step s = .next t ∧
    t = { s with
      phase := .idle, rspValid := true, rspStatus := .errIllegal, rspResult := 0,
      inputs := t.inputs, busyCycles := t.busyCycles })

/-- The command protocol (R114) in the model's own terms. `cmd_ready` is one exactly when PHASE is IDLE. A command
presented then, without reset, is accepted: with LATENCY 1 there is no BUSY cycle, with a longer one PHASE is BUSY. In a
BUSY cycle, whatever is presented, nothing is accepted. The rest of clauses 2 to 4 is the model's choice and no words of
R114: LATENCY as a list whose exhaustion counts as LATENCY 1 (log 2), `cmd_value` sampled modulo `2^VW` (log 4), and a
BUSY phase that holds the sampled word and value with a countdown while CAP, RC, WC, FULL, STORE and the response
registers stay as they were until the edge before the response (log 11). -/
def Obligations.OneCommandAtATime : Prop :=
  (∀ s : State, s.cmdReady = true ↔ s.phase = .idle) ∧
  (∀ s : State, s.cfg.Wf → s.phase = .idle → s.driven.rst = false → s.driven.cmdValid = true →
    s.busyCycles.headD 0 = 0 → ∃ t, step s = .next t ∧ t.phase = .idle ∧ t.rspValid = true) ∧
  (∀ (s : State) (left : Nat), s.cfg.Wf → s.phase = .idle → s.driven.rst = false → s.driven.cmdValid = true →
    s.busyCycles.headD 0 = left + 1 → ∃ t, step s = .next t ∧
    t = { s with
      rspValid := false,
      phase := .busy { word := s.driven.cmdWord, value := s.driven.cmdValue % 2 ^ s.cfg.vw } left,
      inputs := t.inputs, busyCycles := t.busyCycles }) ∧
  (∀ (s : State) (c : Command) (left : Nat), s.cfg.Wf → s.phase = .busy c (left + 1) → s.driven.rst = false →
    ∃ t, step s = .next t ∧
    t = { s with phase := .busy c left, rspValid := false, inputs := t.inputs, busyCycles := t.busyCycles })

/-- R110: between commands the block waits with `cmd_ready = 1` and holds its state; only the response pulse ends. -/
def Obligations.IdleBlockHoldsItsState : Prop :=
  ∀ s : State, s.cfg.Wf → s.phase = .idle → s.driven.rst = false → s.driven.cmdValid = false →
    s.cmdReady = true ∧ ∃ t, step s = .next t ∧
    t = { s with rspValid := false, inputs := t.inputs, busyCycles := t.busyCycles }

/-- The model's environment fields (logs 2, 3, 15), the model's own choice: every cycle consumes one entry of the
host's list, and exactly an accepting edge consumes one latency; the configuration never changes. -/
def Obligations.EnvironmentMovesOn : Prop :=
  ∀ s t : State, step s = .next t →
    t.cfg = s.cfg ∧ t.inputs = s.inputs.tail ∧
    t.busyCycles =
      if s.driven.rst = false ∧ s.driven.cmdValid = true ∧ s.phase = .idle then s.busyCycles.tail else s.busyCycles

/-- A cycle is a response cycle exactly when the edge before it ended a command's latency; PHASE is IDLE in it; the
response registers keep their values from one response to the next (R115, R116, R25). That the cursors, the flag, the
capacity and the storage also keep theirs wherever no response comes, an accepting edge with a longer LATENCY and every
BUSY cycle included, is the model's choice (log 11): it places a command's whole effect at the edge before its response,
where R41 makes it visible. That an exhausted list counts as LATENCY 1 is the model's choice too (log 2). -/
def Obligations.OneResponsePulsePerCommand : Prop :=
  ∀ s t : State, s.driven.rst = false → step s = .next t →
    (t.rspValid = true ↔
      (s.phase = .idle ∧ s.driven.cmdValid = true ∧ s.busyCycles.headD 0 = 0) ∨ ∃ c, s.phase = .busy c 0) ∧
    (t.rspValid = true → t.cmdReady = true) ∧
    (t.rspValid = false → t.response = s.response ∧ t.buffer = s.buffer)

/-- The block never stops: with a BRB core's configuration every state has a next state (R99; 93: no `stuck`). -/
def Obligations.BlockNeverStops : Prop :=
  ∀ s : State, s.cfg.Wf → ∃ t, step s = .next t ∧ t.cfg = s.cfg

/-- R6, I5: what is configured outside R5 to R7 is no BRB core and is refused (log 10). -/
def Obligations.OtherConfigurationsAreRefused : Prop :=
  ∀ s : State, ¬ s.cfg.Wf → step s = .refused .notABrbCore

/-- R113, R122: LATENCY changes no response and no state. A command that takes `left` BUSY cycles, whatever the host
presents in them, ends in the state in which the same command performed in no time ends. -/
def Obligations.LatencyChangesNoResponseOrState : Prop :=
  ∀ (s : State) (p : PortIn) (ps rest : List PortIn) (ls : List Nat),
    s.cfg.Wf → s.phase = .idle → p.cmdValid = true → noReset (p :: ps) = true →
    s.inputs = p :: ps ++ rest → s.busyCycles = ps.length :: ls →
    s.cycles (ps.length + 1) =
      State.perform { s with inputs := rest, busyCycles := ls }
        { word := p.cmdWord, value := p.cmdValue % 2 ^ s.cfg.vw }

/-- R121, R122: a program issued through the ports, with any latency for each command, gives the responses and the state
that its run without time gives. -/
def Obligations.ProgramsThroughThePortsRunAsWritten : Prop :=
  ∀ (s : State) (cs : List (Command × Nat)) (rest : List PortIn) (ls : List Nat),
    s.cfg.Wf → s.phase = .idle → (∀ c ∈ cs, c.1.value < 2 ^ s.cfg.vw) →
    s.inputs = issueAll cs ++ rest → s.busyCycles = cs.map (fun c => c.2) ++ ls →
    s.watch (issueAll cs).length =
      State.runProgram { s with inputs := rest, busyCycles := ls } (cs.map (fun c => c.1))

/-! ## SIZE and CLEAR -/

/-- R67: SIZE answers the occupied size and writes nothing; an empty buffer gives 0, a full one CAP, one that crosses the
end of storage `CAP + WC - RC`. -/
def Obligations.SizeAnswersOccupiedBits : Prop :=
  decode 0x40000000#32 = .ok .size ∧
  ∀ s : State,
    exec .size s = .next { s with
      phase := .idle, rspValid := true, rspStatus := .ok,
      rspResult := if s.full then s.cap else (s.cap + s.wc - s.rc) % s.cap } ∧
    (s.full = false → s.rc = s.wc → s.size = 0) ∧
    (s.full = true → s.size = s.cap) ∧
    (s.full = false → s.wc < s.rc → s.rc < s.cap → s.size = s.cap + s.wc - s.rc)

/-- R68: CLEAR sets RC to WC and clears FULL, writes nothing else, leaves the buffer empty and is idempotent. -/
def Obligations.ClearEmptiesWithoutTouchingStorage : Prop :=
  decode 0x50000000#32 = .ok .clear ∧
  ∀ s : State, ∃ t,
    exec .clear s = .next t ∧
    t = { s with rc := s.wc, full := false, phase := .idle, rspValid := true, rspStatus := .ok, rspResult := 0 } ∧
    t.size = 0 ∧ exec .clear t = .next t

/-- Where the invariants hold, `size()` is CAP exactly when FULL is 1 (40_occupancy.md, occupancy law (d)). -/
def Obligations.SizeIsCapacityExactlyWhenFull : Prop :=
  ∀ s : State, s.Inv → (s.size = s.cap ↔ s.full = true)

/-! ## Counts -/

/-- R96: a count above VW raises ERR_WIDTH in WRITE, READ and PEEK, in every state; a negative or zero count never does. -/
def Obligations.CountsAboveTheBusRaiseErrWidth : Prop :=
  ∀ (s : State) (bits : Int),
    ((s.cfg.vw : Int) < bits → ∀ i ∈ [Instr.write bits, Instr.read bits, Instr.peek bits],
      exec i s = .next { s with phase := .idle, rspValid := true, rspStatus := .errWidth, rspResult := 0 }) ∧
    (bits ≤ 0 → ∀ i ∈ [Instr.write bits, Instr.read bits, Instr.peek bits],
      ∀ t, exec i s = .next t → t.rspStatus ≠ .errWidth)

/-- A negative or zero count makes WRITE, READ and PEEK answer OK with result 0 and change nothing, a full buffer
included (R56, R81, R87, R88). -/
def Obligations.CountsUpToZeroAreNoOps : Prop :=
  ∀ (s : State) (bits : Int), bits ≤ 0 → ∀ i ∈ [Instr.write bits, Instr.read bits, Instr.peek bits],
    exec i s = .next { s with phase := .idle, rspValid := true, rspStatus := .ok, rspResult := 0 }

/-- R58: only WRITE reads the sampled value, and only its low `bits` bits. -/
def Obligations.OnlyWriteReadsTheValueOperand : Prop :=
  ∀ (s : State) (c c' : Command) (left : Nat) (i : Instr),
    ((∀ bits, i ≠ .write bits) ∨
      ∃ bits : Int, i = .write bits ∧ c.value % 2 ^ bits.toNat = c'.value % 2 ^ bits.toNat) →
    exec i { s with phase := .busy c left } = exec i { s with phase := .busy c' left }

/-! ## READ and PEEK -/

/-- R87: READ. Its word; ERR_WIDTH above VW; a no-op with result 0 up to 0; between them the number whose bits are the
oldest `bits` occupied bits (all of them where fewer are occupied), RC advanced by that many and FULL cleared, also when
it moves none. It writes nothing else and uses no value operand. -/
def Obligations.ReadReturnsTheOldestBits : Prop :=
  (∀ bits : Int, CountFits bits →
    decode (BitVec.ofNat 32 (0x20000000 + (bits % 2 ^ 16).toNat)) = .ok (.read bits)) ∧
  ∀ s : State,
    (∀ bits : Int, (s.cfg.vw : Int) < bits → exec (.read bits) s = .next { s with
      phase := .idle, rspValid := true, rspStatus := .errWidth, rspResult := 0 }) ∧
    (∀ bits : Int, bits ≤ 0 → exec (.read bits) s = .next { s with
      phase := .idle, rspValid := true, rspStatus := .ok, rspResult := 0 }) ∧
    (∀ n : Nat, 0 < n → n ≤ s.cfg.vw → exec (.read n) s = .next { s with
      rc := (s.rc + min n s.size) % s.cap, full := false,
      phase := .idle, rspValid := true, rspStatus := .ok, rspResult := bitsValue (s.contents.take n) })

/-- READ leaves the rest of the stream, and `size()` shrinks by the bits it returned (43_read.md, read law (b)). -/
def Obligations.ReadRemovesWhatItReturns : Prop :=
  ∀ (s t : State) (n : Nat), s.Inv → 0 < n → n ≤ s.cfg.vw → exec (.read n) s = .next t →
    t.contents = s.contents.drop n ∧ t.size = s.size - min n s.size ∧ t.rspResult < 2 ^ min n s.size

/-- R88: PEEK. Its word, the checks of READ and the value READ would return; it writes no state but the response. -/
def Obligations.PeekReturnsTheOldestBits : Prop :=
  (∀ bits : Int, CountFits bits →
    decode (BitVec.ofNat 32 (0x30000000 + (bits % 2 ^ 16).toNat)) = .ok (.peek bits)) ∧
  ∀ s : State,
    (∀ bits : Int, (s.cfg.vw : Int) < bits → exec (.peek bits) s = .next { s with
      phase := .idle, rspValid := true, rspStatus := .errWidth, rspResult := 0 }) ∧
    (∀ bits : Int, bits ≤ 0 → exec (.peek bits) s = .next { s with
      phase := .idle, rspValid := true, rspStatus := .ok, rspResult := 0 }) ∧
    (∀ n : Nat, 0 < n → n ≤ s.cfg.vw → exec (.peek n) s = .next { s with
      phase := .idle, rspValid := true, rspStatus := .ok, rspResult := bitsValue (s.contents.take n) })

/-- A PEEK twice in a row answers the same, leaves `size()`, and a READ of the same count then answers it too
(43_read.md, read law (a)). -/
def Obligations.PeekForetellsRead : Prop :=
  ∀ (s t : State) (bits : Int), exec (.peek bits) s = .next t →
    exec (.peek bits) t = .next t ∧ t.size = s.size ∧ t.contents = s.contents ∧
    ∃ u, exec (.read bits) t = .next u ∧ u.response = t.response

/-- Two reads return the bits one read of both widths returns (43_read.md, read law (d)). -/
def Obligations.FieldsSplitAnywhere : Prop :=
  ∀ (m : Memory) (cap p a b : Nat),
    m.field cap p (a + b) = m.field cap p a * 2 ^ b + m.field cap ((p + a) % cap) b ∧ m.field cap p a < 2 ^ a

/-- The byte-wise read the source gives computes the same field value (43_read.md, the field value's two definitions). -/
def Obligations.BytewiseReadIsTheField : Prop :=
  ∀ (m : Memory) (cap p n : Nat), 0 < cap → cap % 8 = 0 → p < cap → n ≤ cap →
    m.fieldBytes cap p n = m.field cap p n

/-! ## WRITE -/

/-- WRITE where the field fits: the bits of the field hold the low bits of the value, most significant first, every other
bit of storage is unchanged, WC advances modulo CAP, FULL says whether it landed on RC (R81, R83, R84; no growth: R70). -/
def Obligations.WriteThatFitsStoresItsField : Prop :=
  ∀ (s : State) (n : Nat), s.Inv → 0 < n → n ≤ s.cfg.vw → n + s.size ≤ s.cap →
    ∃ t, exec (.write n) s = .next t ∧
      t = { s with
        wc := (s.wc + n) % s.cap, full := decide ((s.wc + n) % s.cap = s.rc), store := t.store,
        phase := .idle, rspValid := true, rspStatus := .ok, rspResult := 0 } ∧
      (∀ i, i < n → t.store.sbit ((s.wc + i) % s.cap) = s.operand.testBit (n - 1 - i)) ∧
      (∀ p, (∀ i, i < n → p ≠ (s.wc + i) % s.cap) → t.store.sbit p = s.store.sbit p)

/-- WRITE that grows: CAP doubles as often as needed, the occupied bits move to the start of the new storage keeping
their offset in the byte, the field follows them, every other bit is 0 (R71, R73 to R77, R81). -/
def Obligations.WriteThatGrowsRelocatesAndStores : Prop :=
  ∀ (s : State) (n m : Nat), s.Inv → 0 < n → n ≤ s.cfg.vw → s.cap < n + s.size →
    LeastDoubling s.cap (n + s.size) m → s.cap * 2 ^ m / 8 ≤ s.cfg.maxBytes →
    ∃ t, exec (.write n) s = .next t ∧
      t = { s with
        cap := s.cap * 2 ^ m, rc := s.rc % 8, wc := (s.rc % 8 + s.size + n) % (s.cap * 2 ^ m),
        full := decide ((s.rc % 8 + s.size + n) % (s.cap * 2 ^ m) = s.rc % 8), store := t.store,
        phase := .idle, rspValid := true, rspStatus := .ok, rspResult := 0 } ∧
      (∀ i, i < s.size → t.store.sbit (s.rc % 8 + i) = s.store.sbit ((s.rc + i) % s.cap)) ∧
      (∀ i, i < n →
        t.store.sbit ((s.rc % 8 + s.size + i) % (s.cap * 2 ^ m)) = s.operand.testBit (n - 1 - i)) ∧
      (∀ p, (∀ i, i < s.size → p ≠ s.rc % 8 + i) → (∀ i, i < n → p ≠ (s.rc % 8 + s.size + i) % (s.cap * 2 ^ m)) →
        t.store.sbit p = false)

/-- R97, R72: a WRITE whose growth needs more than MAX_BYTES raises ERR_ALLOC and changes nothing. -/
def Obligations.WriteBeyondMaxBytesRaisesErrAlloc : Prop :=
  ∀ (s : State) (n m : Nat), 0 < s.cap → 0 < n → n ≤ s.cfg.vw → s.cap < n + s.size →
    LeastDoubling s.cap (n + s.size) m → s.cfg.maxBytes < s.cap * 2 ^ m / 8 →
    exec (.write n) s = .next { s with phase := .idle, rspValid := true, rspStatus := .errAlloc, rspResult := 0 }

/-- A WRITE that answers OK appends the low `bits` bits of its value to the stream and keeps every bit written before, in
order, whether or not it grew (42_write.md, write laws (a) to (d)). -/
def Obligations.WriteAppendsToTheStream : Prop :=
  ∀ (s t : State) (n : Nat), s.Inv → 0 < n → n ≤ s.cfg.vw → exec (.write n) s = .next t → t.rspStatus = .ok →
    t.contents = s.contents ++ fieldBits n (s.operand % 2 ^ n) ∧ t.size = s.size + n ∧
    (t.cap ≠ s.cap → s.cap < n + s.size)

/-- After a WRITE that answers OK, FULL is 1 exactly when the buffer became exactly full (42_write.md, the full flag). -/
def Obligations.WriteSetsFullExactlyWhenFilled : Prop :=
  ∀ (s t : State) (n : Nat), s.Inv → 0 < n → n ≤ s.cfg.vw → exec (.write n) s = .next t → t.rspStatus = .ok →
    (t.full = true ↔ t.wc = t.rc) ∧ (t.full = true ↔ s.size + n = t.cap)

/-- The byte-wise write the source gives stores what the bit-wise one does (42_write.md, the decomposition). -/
def Obligations.BytewiseWriteIsTheFieldWrite : Prop :=
  ∀ (m : Memory) (cap p n v : Nat), m.wf = true → 0 < cap → cap % 8 = 0 → p < cap → 0 < n → n ≤ cap → v < 2 ^ n →
    m.setFieldBytes cap p n v = m.setField cap p n v

/-! ## Growth -/

/-- R71: the new capacity is `CAP * 2^m` for the least `m >= 1` that makes room, whenever growth is triggered. -/
def Obligations.GrowthTargetIsTheLeastDoubling : Prop :=
  ∀ (s : State) (n : Nat), 0 < s.cap → s.cap < n + s.size →
    ∃ m, s.targetCap n = s.cap * 2 ^ m ∧ LeastDoubling s.cap (n + s.size) m

/-- Growth keeps every occupied bit at its new position and the occupied size (41_growth.md, preservation; R74). -/
def Obligations.GrowthPreservesOccupiedBits : Prop :=
  ∀ (s : State) (newCap : Nat), s.Inv → 2 * s.cap ≤ newCap →
    (∀ i, i < s.size → (s.growTo newCap).store.sbit (s.rc % 8 + i) = s.store.sbit ((s.rc + i) % s.cap)) ∧
    (s.growTo newCap).size = s.size ∧ (s.growTo newCap).contents = s.contents

/-- R76 and the effect of R75: after growth every bit outside the occupied ones is 0, and every byte not copied is 0x00. -/
def Obligations.GrowthZeroesEverythingElse : Prop :=
  ∀ (s : State) (newCap : Nat), s.Inv → 2 * s.cap ≤ newCap →
    (∀ p, p < s.rc % 8 ∨ s.rc % 8 + s.size ≤ p → (s.growTo newCap).store.sbit p = false) ∧
    (∀ j, (s.rc % 8 + s.size + 7) / 8 ≤ j → (s.growTo newCap).store.read j = 0x00)

/-- Growing by `m` single doublings gives the state of one growth to the final capacity (41_growth.md, stepwise
doubling). -/
def Obligations.StepwiseDoublingIsOneGrowth : Prop :=
  ∀ (s : State) (m : Nat), s.Inv → 1 ≤ m → s.growStepwise m = s.growTo (s.cap * 2 ^ m)

/-- The reference FSM of R80 reaches, for every WRITE, the exit the normative rules give: no growth, ERR_ALLOC, or the
grown state (log 14). -/
def Obligations.ReferenceFsmRefinesGrowth : Prop :=
  ∀ (s : State) (n : Nat), s.Inv → 0 < n → n ≤ s.cfg.vw →
    ∃ k, ∀ k', k ≤ k' → s.growthRun n k' .check =
      if n + s.size ≤ s.cap then .fieldWrite s
      else if s.cfg.maxBytes < s.targetCap n / 8 then .failed
      else .fieldWrite (s.growTo (s.targetCap n))

/-! ## DBG_BYTE and DBG_STATE -/

/-- R90: DBG_BYTE of a byte of the storage answers it, and of any other index raises ERR_RANGE; it writes nothing else. -/
def Obligations.DbgByteAnswersTheRawByte : Prop :=
  (∀ index, index < 2 ^ 28 → decode (BitVec.ofNat 32 (0x60000000 + index)) = .ok (.dbgByte index)) ∧
  ∀ (s : State) (index : Nat),
    (index < s.cap / 8 → exec (.dbgByte index) s = .next { s with
      phase := .idle, rspValid := true, rspStatus := .ok, rspResult := (s.store.read index).toNat }) ∧
    (s.cap / 8 ≤ index → exec (.dbgByte index) s = .next { s with
      phase := .idle, rspValid := true, rspStatus := .errRange, rspResult := 0 })

/-- R91: DBG_STATE answers the packed word, and where the invariants hold its four fields are RC, WC, CAP and FULL. -/
def Obligations.DbgStatePacksTheRegisters : Prop :=
  decode 0x70000000#32 = .ok .dbgState ∧
  ∀ s : State, ∃ r,
    exec .dbgState s = .next { s with phase := .idle, rspValid := true, rspStatus := .ok, rspResult := r } ∧
    r = s.rc + s.wc * 2 ^ 32 + s.cap * 2 ^ 64 + s.full.toNat * 2 ^ 96 ∧
    (s.Inv → r % 2 ^ 32 = s.rc ∧ r / 2 ^ 32 % 2 ^ 32 = s.wc ∧ r / 2 ^ 64 % 2 ^ 32 = s.cap ∧
      r / 2 ^ 96 = s.full.toNat)

/-- The debug view's data: every stream position's bit stands where its marker would (R92). -/
def Obligations.DebugRowsShowEveryStreamBit : Prop :=
  ∀ (s : State) (p : Nat), s.cap % 8 = 0 → p < s.cap →
    ∃ row, s.debugRows[(markerPlace p).1]? = some row ∧ row.length = 8 ∧
      row[(markerPlace p).2]? = some (s.store.sbit p)

/-! ## Errors -/

/-- R99: a command word that ends with an error code answers with result 0, changes nothing, and the next one can be
accepted. -/
def Obligations.ErrorsChangeNothing : Prop :=
  ∀ (c : Command) (s t : State), s.finish c = .next t → t.rspStatus ≠ .ok →
    t = { s with phase := .idle, rspValid := true, rspStatus := t.rspStatus, rspResult := 0 } ∧ t.cmdReady = true

/-- The status codes and which commands raise each, with its cause (60_exceptions.md section 1). -/
def Obligations.StatusCodesAndTheirSources : Prop :=
  (Status.code .ok = 0 ∧ Status.code .errAlloc = 1 ∧ Status.code .errIllegal = 2 ∧ Status.code .errWidth = 3 ∧
    Status.code .errRange = 4 ∧ ∀ st : Status, st.code.toNat < 5) ∧
  ∀ (c : Command) (s t : State), s.finish c = .next t →
    (t.rspStatus = .errIllegal ↔ IllegalWord c.word) ∧
    (t.rspStatus = .errWidth ↔ ∃ bits : Int, (s.cfg.vw : Int) < bits ∧
      (decode c.word = .ok (.write bits) ∨ decode c.word = .ok (.read bits) ∨ decode c.word = .ok (.peek bits))) ∧
    (t.rspStatus = .errRange ↔ ∃ index, decode c.word = .ok (.dbgByte index) ∧ s.cap / 8 ≤ index) ∧
    (t.rspStatus = .errAlloc ↔ ∃ n : Nat, decode c.word = .ok (.write n) ∧ 0 < n ∧ n ≤ s.cfg.vw ∧
      s.cap < n + s.size ∧ s.cfg.maxBytes < s.targetCap n / 8)

/-- R101: what is not an error answers OK. -/
def Obligations.ConditionsThatAreNoErrors : Prop :=
  ∀ s : State,
    (∀ bits : Int, bits ≤ 0 → ∀ i ∈ [Instr.write bits, Instr.read bits, Instr.peek bits],
      ∃ t, exec i s = .next t ∧ t.rspStatus = .ok) ∧
    (∀ n : Nat, n ≤ s.cfg.vw → ∀ i ∈ [Instr.read n, Instr.peek n], ∃ t, exec i s = .next t ∧ t.rspStatus = .ok) ∧
    (∀ n m : Nat, 0 < s.cap → n ≤ s.cfg.vw →
      n + s.size ≤ s.cap ∨ LeastDoubling s.cap (n + s.size) m ∧ s.cap * 2 ^ m / 8 ≤ s.cfg.maxBytes →
      ∃ t, exec (.write n) s = .next t ∧ t.rspStatus = .ok) ∧
    (∀ i ∈ [Instr.clear, Instr.size, Instr.dbgState], ∃ t, exec i s = .next t ∧ t.rspStatus = .ok)

/-! ## Whole-machine rules -/

/-- The invariants of R21 are kept by every step, from every state that meets them (10_state.md section 3). -/
def Obligations.StepKeepsInvariants : Prop :=
  ∀ s t : State, s.Inv → step s = .next t → t.Inv

/-- CAP never decreases between resets, and changes only to a power of two times itself (10_state.md section 4). -/
def Obligations.CapacityOnlyDoubles : Prop :=
  ∀ s t : State, s.Inv → s.driven.rst = false → step s = .next t →
    s.cap ≤ t.cap ∧ ∃ k, t.cap = s.cap * 2 ^ k

/-- R19: who writes FULL. A completed WRITE with `bits > 0` sets it to `WC = RC`, a READ with `bits > 0` and CLEAR clear
it, growth clears it; every other command, every no-op count and every error leaves it. -/
def Obligations.OnlyTheseCommandsWriteFull : Prop :=
  (∀ (s t : State) (i : Instr), exec i s = .next t →
    (∀ bits : Int, i = .write bits → 0 < bits → t.rspStatus = .ok → (t.full = true ↔ t.wc = t.rc)) ∧
    (∀ bits : Int, i = .read bits → 0 < bits → t.rspStatus = .ok → t.full = false) ∧
    (i = .clear → t.full = false) ∧
    (((∀ bits : Int, 0 < bits → i ≠ .write bits ∧ i ≠ .read bits) ∧ i ≠ .clear) ∨ t.rspStatus ≠ .ok →
      t.full = s.full)) ∧
  ∀ (s : State) (newCap : Nat), (s.growTo newCap).full = false

/-- Only WRITE changes the storage or the capacity; no other command grows or zeroes (R20, R70). -/
def Obligations.OnlyWriteTouchesStorage : Prop :=
  ∀ (i : Instr) (s t : State), exec i s = .next t → t.store ≠ s.store ∨ t.cap ≠ s.cap ∨ t.wc ≠ s.wc →
    ∃ bits : Int, i = .write bits ∧ 0 < bits ∧ bits ≤ s.cfg.vw

/-- PEEK, SIZE, DBG_BYTE and DBG_STATE change no state but the response and, repeated, answer the same (R40). -/
def Obligations.InspectionIsIdempotent : Prop :=
  ∀ (i : Instr) (s t : State),
    (∃ bits, i = .peek bits) ∨ i = .size ∨ (∃ index, i = .dbgByte index) ∨ i = .dbgState →
    exec i s = .next t →
    t = { s with phase := .idle, rspValid := true, rspStatus := t.rspStatus, rspResult := t.rspResult } ∧
      exec i t = .next t

/-- No command touches the configuration, the host's inputs or the implementation's latencies; each ends with exactly one
response, in PHASE IDLE (R13, R117). -/
def Obligations.EveryCommandRespondsOnce : Prop :=
  ∀ (i : Instr) (s : State), ∃ t, exec i s = .next t ∧ t.rspValid = true ∧ t.phase = .idle ∧
    t.cfg = s.cfg ∧ t.inputs = s.inputs ∧ t.busyCycles = s.busyCycles

/-- No claim of the FIFO contract depends on unoccupied bits: two states that differ in nothing else answer every command
of the contract alike and stay alike (R24, I1). -/
def Obligations.UnoccupiedBitsAreInvisible : Prop :=
  ∀ (s t : State) (i : Instr), s.Inv → t.Inv → SameStream s t → inContract i = true →
    ∃ s' t', exec i s = .next s' ∧ exec i t = .next t' ∧ s'.response = t'.response ∧ SameStream s' t'

/-- The round trip: values written into an empty buffer come back in order from reads of the same widths, whatever growth
came in between (42_write.md, write laws; 95: "Round-trip"). -/
def Obligations.WritesComeBackInOrder : Prop :=
  ∀ (s t : State) (ws : List (Nat × Nat)) (rs : List Response), s.Inv → s.size = 0 →
    (∀ w ∈ ws, w.1 < 2 ^ w.2 ∧ w.2 ≤ s.cfg.vw) →
    s.runProgram (ws.map writeCommand) = some (rs, t) → (∀ r ∈ rs, r.status = .ok) →
    ∃ u, t.runProgram (ws.map readCommand) = some (ws.map (fun w => { status := .ok, result := w.1 }), u) ∧ u.size = 0
end

