-- ==== Sys2Proof/Laws/State.lean ====
section
/-! SUPPORT. One lemma per field per update of State, each true by definition, so that no proof unfolds an update. -/

namespace Sys2Proof.Laws

open Sys2Proof.Machine

section respond

variable (s : State) (st : Status) (r : Nat)

@[simp] theorem respond_cfg : (s.respond st r).cfg = s.cfg := rfl
@[simp] theorem respond_cap : (s.respond st r).cap = s.cap := rfl
@[simp] theorem respond_rc : (s.respond st r).rc = s.rc := rfl
@[simp] theorem respond_wc : (s.respond st r).wc = s.wc := rfl
@[simp] theorem respond_full : (s.respond st r).full = s.full := rfl
@[simp] theorem respond_store : (s.respond st r).store = s.store := rfl
@[simp] theorem respond_phase : (s.respond st r).phase = .idle := rfl
@[simp] theorem respond_rspValid : (s.respond st r).rspValid = true := rfl
@[simp] theorem respond_rspStatus : (s.respond st r).rspStatus = st := rfl
@[simp] theorem respond_rspResult : (s.respond st r).rspResult = r := rfl
@[simp] theorem respond_inputs : (s.respond st r).inputs = s.inputs := rfl
@[simp] theorem respond_busyCycles : (s.respond st r).busyCycles = s.busyCycles := rfl
@[simp] theorem respond_size : (s.respond st r).size = s.size := rfl
@[simp] theorem respond_storeBytes : (s.respond st r).storeBytes = s.storeBytes := rfl
@[simp] theorem respond_operand : (s.respond st r).operand = 0 := rfl
@[simp] theorem respond_cmdReady : (s.respond st r).cmdReady = true := rfl
@[simp] theorem respond_contents : (s.respond st r).contents = s.contents := rfl
@[simp] theorem respond_response : (s.respond st r).response = { status := st, result := r } := rfl
@[simp] theorem respond_buffer : (s.respond st r).buffer = s.buffer := rfl

/-- The later response wins; the earlier one leaves nothing. -/
@[simp] theorem respond_respond (st' : Status) (r' : Nat) :
    (s.respond st r).respond st' r' = s.respond st' r' := rfl

/-- An error is a response with result 0. -/
theorem raise_eq_respond : s.raise st = s.respond st 0 := rfl

end respond

section growTo

variable (s : State) (newCap : Nat)

@[simp] theorem growTo_cfg : (s.growTo newCap).cfg = s.cfg := rfl
@[simp] theorem growTo_cap : (s.growTo newCap).cap = newCap := rfl
@[simp] theorem growTo_rc : (s.growTo newCap).rc = s.rc % 8 := rfl
@[simp] theorem growTo_wc : (s.growTo newCap).wc = s.size + s.rc % 8 := rfl
@[simp] theorem growTo_full : (s.growTo newCap).full = false := rfl
@[simp] theorem growTo_phase : (s.growTo newCap).phase = s.phase := rfl
@[simp] theorem growTo_rspValid : (s.growTo newCap).rspValid = s.rspValid := rfl
@[simp] theorem growTo_rspStatus : (s.growTo newCap).rspStatus = s.rspStatus := rfl
@[simp] theorem growTo_rspResult : (s.growTo newCap).rspResult = s.rspResult := rfl
@[simp] theorem growTo_inputs : (s.growTo newCap).inputs = s.inputs := rfl
@[simp] theorem growTo_busyCycles : (s.growTo newCap).busyCycles = s.busyCycles := rfl
@[simp] theorem growTo_operand : (s.growTo newCap).operand = s.operand := rfl
@[simp] theorem growTo_storeBytes : (s.growTo newCap).storeBytes = newCap / 8 := rfl
theorem growTo_store : (s.growTo newCap).store = zeroEdges s.relocated (s.rc % 8) (s.size + s.rc % 8) := rfl

end growTo

section append

variable (s : State) (n v : Nat)

@[simp] theorem append_cfg : (s.append n v).cfg = s.cfg := rfl
@[simp] theorem append_cap : (s.append n v).cap = s.cap := rfl
@[simp] theorem append_rc : (s.append n v).rc = s.rc := rfl
@[simp] theorem append_wc : (s.append n v).wc = (s.wc + n) % s.cap := rfl
@[simp] theorem append_full : (s.append n v).full = decide ((s.wc + n) % s.cap = s.rc) := rfl
@[simp] theorem append_store : (s.append n v).store = s.store.setField s.cap s.wc n (v % 2 ^ n) := rfl
@[simp] theorem append_phase : (s.append n v).phase = s.phase := rfl
@[simp] theorem append_inputs : (s.append n v).inputs = s.inputs := rfl
@[simp] theorem append_busyCycles : (s.append n v).busyCycles = s.busyCycles := rfl
@[simp] theorem append_storeBytes : (s.append n v).storeBytes = s.storeBytes := rfl

end append

section advance

variable (s : State) (bits : Int)

@[simp] theorem advance_cfg : (s.advance bits).cfg = s.cfg := rfl
@[simp] theorem advance_cap : (s.advance bits).cap = s.cap := rfl
@[simp] theorem advance_rc : (s.advance bits).rc = (s.rc + s.clamped bits) % s.cap := rfl
@[simp] theorem advance_wc : (s.advance bits).wc = s.wc := rfl
@[simp] theorem advance_full : (s.advance bits).full = false := rfl
@[simp] theorem advance_store : (s.advance bits).store = s.store := rfl
@[simp] theorem advance_phase : (s.advance bits).phase = s.phase := rfl
@[simp] theorem advance_inputs : (s.advance bits).inputs = s.inputs := rfl
@[simp] theorem advance_busyCycles : (s.advance bits).busyCycles = s.busyCycles := rfl
@[simp] theorem advance_storeBytes : (s.advance bits).storeBytes = s.storeBytes := rfl

/-- The clamped length of a positive count (R86). -/
theorem clamped_natCast (n : Nat) : s.clamped n = min n s.size := by
  unfold State.clamped
  split
  · omega
  · simp

end advance

section cleared

variable (s : State)

@[simp] theorem cleared_cfg : s.cleared.cfg = s.cfg := rfl
@[simp] theorem cleared_cap : s.cleared.cap = s.cap := rfl
@[simp] theorem cleared_rc : s.cleared.rc = s.wc := rfl
@[simp] theorem cleared_wc : s.cleared.wc = s.wc := rfl
@[simp] theorem cleared_full : s.cleared.full = false := rfl
@[simp] theorem cleared_store : s.cleared.store = s.store := rfl
@[simp] theorem cleared_inputs : s.cleared.inputs = s.inputs := rfl
@[simp] theorem cleared_busyCycles : s.cleared.busyCycles = s.busyCycles := rfl
@[simp] theorem cleared_storeBytes : s.cleared.storeBytes = s.storeBytes := rfl

/-- CLEAR leaves the buffer empty in every state (R69). -/
@[simp] theorem cleared_size : s.cleared.size = 0 := by
  simp [State.size, State.cleared, fullAfterClear]

end cleared

section resetWith

variable (cfg : Config) (ins : List PortIn) (bc : List Nat)

@[simp] theorem resetWith_cfg : (State.resetWith cfg ins bc).cfg = cfg := rfl
@[simp] theorem resetWith_cap : (State.resetWith cfg ins bc).cap = cfg.initBytes * 8 := rfl
@[simp] theorem resetWith_rc : (State.resetWith cfg ins bc).rc = 0 := rfl
@[simp] theorem resetWith_wc : (State.resetWith cfg ins bc).wc = 0 := rfl
@[simp] theorem resetWith_full : (State.resetWith cfg ins bc).full = false := rfl
@[simp] theorem resetWith_store : (State.resetWith cfg ins bc).store = [] := rfl
@[simp] theorem resetWith_phase : (State.resetWith cfg ins bc).phase = .idle := rfl
@[simp] theorem resetWith_rspValid : (State.resetWith cfg ins bc).rspValid = false := rfl
@[simp] theorem resetWith_rspStatus : (State.resetWith cfg ins bc).rspStatus = .ok := rfl
@[simp] theorem resetWith_rspResult : (State.resetWith cfg ins bc).rspResult = 0 := rfl
@[simp] theorem resetWith_inputs : (State.resetWith cfg ins bc).inputs = ins := rfl
@[simp] theorem resetWith_busyCycles : (State.resetWith cfg ins bc).busyCycles = bc := rfl

end resetWith

end Sys2Proof.Laws
end

