-- ==== Sys2Proof/Laws/Memory.lean ====
section
/-! SUPPORT. The laws of the byte storage: read after write, the canonical form and what it is for: storages that read
alike are equal data. -/

namespace Sys2Proof.Laws

open Sys2Proof.Machine

@[simp] theorem read_nil (j : Nat) : Memory.read [] j = blankByte := rfl

@[simp] theorem wf_nil : Memory.wf [] = true := rfl

theorem wf_cons {a : Nat} {b : Byte} {m : Memory} :
    Memory.wf ((a, b) :: m) = true ↔ b ≠ blankByte ∧ (∀ c ∈ m, a < c.1) ∧ m.wf = true := by
  simp [Memory.wf, and_assoc]

/-- A byte below every listed one is blank. -/
theorem read_below {m : Memory} {j : Nat} (h : ∀ c ∈ m, j < c.1) : m.read j = blankByte := by
  induction m with
  | nil => rfl
  | cons c m ih =>
    obtain ⟨a, b⟩ := c
    have ha : j < a := h (a, b) (by simp)
    simp [Memory.read, Nat.ne_of_gt ha, ih (fun c hc => h c (by simp [hc]))]

/-- The keys after a write are the old ones and the written one. -/
theorem mem_write {m : Memory} {j : Nat} {v : Byte} {c : Host.Cell} (h : c ∈ m.write j v) : c = (j, v) ∨ c ∈ m := by
  induction m with
  | nil =>
    simp only [Memory.write] at h
    split at h <;> simp_all
  | cons d m ih =>
    obtain ⟨a, b⟩ := d
    simp only [Memory.write] at h
    split_ifs at h <;> simp only [List.mem_cons] at h ⊢ <;> tauto

/-- Every write keeps the canonical form. -/
theorem write_wf {m : Memory} (j : Nat) (v : Byte) (h : m.wf = true) : (m.write j v).wf = true := by
  induction m with
  | nil =>
    simp only [Memory.write]
    split <;> simp_all [wf_cons]
  | cons c m ih =>
    obtain ⟨a, b⟩ := c
    obtain ⟨hb, ha, hm⟩ := wf_cons.1 h
    simp only [Memory.write]
    split_ifs with h1 h2 h3 h4
    · exact h
    · refine wf_cons.2 ⟨h2, fun c hc => ?_, h⟩
      rcases List.mem_cons.1 hc with rfl | hc
      · exact h1
      · exact h1.trans (ha c hc)
    · exact hm
    · exact wf_cons.2 ⟨h4, by simpa [h3] using ha, hm⟩
    · refine wf_cons.2 ⟨hb, fun c hc => ?_, ih hm⟩
      rcases mem_write hc with rfl | hc
      · show a < j
        omega
      · exact ha c hc

/-- Read after write (R12): the written byte reads as written, every other one as before. -/
theorem read_write {m : Memory} (j : Nat) (v : Byte) (k : Nat) (h : m.wf = true) :
    (m.write j v).read k = if k = j then v else m.read k := by
  induction m with
  | nil =>
    simp only [Memory.write]
    split_ifs <;> (simp_all [Memory.read]; try omega)
  | cons c m ih =>
    obtain ⟨a, b⟩ := c
    obtain ⟨-, ha, hm⟩ := wf_cons.1 h
    have hj : j < a → Memory.read m j = blankByte := fun h1 => read_below fun c hc => h1.trans (ha c hc)
    have hk : Memory.read m a = blankByte := read_below ha
    simp only [Memory.write]
    by_cases h1 : j < a
    · by_cases hv : v = blankByte
      · by_cases hkj : k = j
        · subst hkj
          simp [h1, hv, Memory.read, h1.ne', hj h1]
        · simp [h1, hv, hkj]
      · by_cases hkj : k = j
        · simp [h1, hv, hkj, Memory.read]
        · simp [h1, hv, hkj, Memory.read, Ne.symm hkj]
    · by_cases h2 : j = a
      · subst h2
        by_cases hv : v = blankByte
        · by_cases hkj : k = j
          · simp [hv, hkj, hk]
          · simp [hv, hkj, Memory.read, Ne.symm hkj]
        · by_cases hkj : k = j
          · simp [hv, hkj, Memory.read]
          · simp [hv, hkj, Memory.read, Ne.symm hkj]
      · by_cases hkj : k = j
        · subst hkj
          simp [h1, h2, Memory.read, Ne.symm h2, ih hm]
        · simp [h1, h2, hkj, Memory.read, ih hm]

/-- Every write below the bound keeps the storage within it. -/
theorem write_within {m : Memory} {j n : Nat} (v : Byte) (hj : j < n) (h : m.within n = true) :
    (m.write j v).within n = true := by
  simp only [Memory.within, List.all_eq_true, decide_eq_true_eq] at h ⊢
  intro c hc
  rcases mem_write hc with rfl | hc
  · exact hj
  · exact h c hc

/-- A byte at or beyond the bound is blank (R32). -/
theorem read_beyond {m : Memory} {n j : Nat} (h : m.within n = true) (hj : n ≤ j) : m.read j = blankByte := by
  induction m with
  | nil => rfl
  | cons c m ih =>
    obtain ⟨a, b⟩ := c
    simp only [Memory.within, List.all_cons, Bool.and_eq_true, decide_eq_true_eq] at h ih
    have : a ≠ j := by omega
    simp [Memory.read, this, ih h.2]

theorem within_mono {m : Memory} {n k : Nat} (h : m.within n = true) (hk : n ≤ k) : m.within k = true := by
  simp only [Memory.within, List.all_eq_true, decide_eq_true_eq] at h ⊢
  exact fun c hc => (h c hc).trans_le hk

/-- What the canonical form is for: two storages in it that read alike are the same list. -/
theorem memory_ext {m m' : Memory} (h : m.wf = true) (h' : m'.wf = true) (hr : ∀ j, m.read j = m'.read j) :
    m = m' := by
  induction m generalizing m' with
  | nil =>
    cases m' with
    | nil => rfl
    | cons c m' =>
      obtain ⟨a, b⟩ := c
      have := hr a
      simp only [Memory.read, if_true] at this
      exact absurd this.symm (wf_cons.1 h').1
  | cons c m ih =>
    obtain ⟨a, b⟩ := c
    obtain ⟨hb, ha, hm⟩ := wf_cons.1 h
    cases m' with
    | nil =>
      have := hr a
      simp only [Memory.read, if_true] at this
      exact absurd this hb
    | cons c' m' =>
      obtain ⟨a', b'⟩ := c'
      obtain ⟨hb', ha', hm'⟩ := wf_cons.1 h'
      have key : a = a' := by
        rcases Nat.lt_trichotomy a a' with hlt | heq | hlt
        · have := hr a
          rw [read_below (m := (a', b') :: m')] at this
          · simp only [Memory.read, if_true] at this
            exact absurd this hb
          · intro c hc
            rcases List.mem_cons.1 hc with rfl | hc
            · exact hlt
            · exact hlt.trans (ha' c hc)
        · exact heq
        · have := hr a'
          rw [read_below (m := (a, b) :: m)] at this
          · simp only [Memory.read, if_true] at this
            exact absurd this.symm hb'
          · intro c hc
            rcases List.mem_cons.1 hc with rfl | hc
            · exact hlt
            · exact hlt.trans (ha c hc)
      subst key
      have hbb : b = b' := by simpa [Memory.read] using hr a
      subst hbb
      congr 1
      refine ih hm hm' fun j => ?_
      by_cases hj : a = j
      · subst hj
        rw [read_below ha, read_below ha']
      · simpa [Memory.read, hj] using hr j

/-- Byte `j` of a tabulated storage. -/
theorem read_tabulate (n : Nat) (f : Nat → Byte) (j : Nat) :
    (Memory.tabulate n f).read j = if j < n then f j else blankByte := by
  have aux : ∀ (l : List Nat), l.Pairwise (· < ·) →
      Memory.read (l.filterMap (fun j => if f j = blankByte then none else some (j, f j))) j =
        if j ∈ l then f j else blankByte := by
    intro l hl
    induction l with
    | nil => rfl
    | cons a l ih =>
      obtain ⟨ha, hl⟩ := List.pairwise_cons.1 hl
      have ih := ih hl
      by_cases hfa : f a = blankByte
      · simp only [List.filterMap_cons, hfa, if_true, ih, List.mem_cons]
        by_cases hja : j = a
        · subst hja
          have : j ∉ l := fun h => absurd (ha j h) (lt_irrefl j)
          simp [this, hfa]
        · simp [hja]
      · simp only [List.filterMap_cons, hfa, if_false, Memory.read, ih, List.mem_cons]
        by_cases hja : a = j
        · simp [hja]
        · simp [hja, Ne.symm hja]
  rw [Memory.tabulate, aux _ List.pairwise_lt_range]
  simp

/-- A tabulated storage is in canonical form. -/
theorem tabulate_wf (n : Nat) (f : Nat → Byte) : (Memory.tabulate n f).wf = true := by
  have aux : ∀ (l : List Nat), l.Pairwise (· < ·) →
      Memory.wf (l.filterMap (fun j => if f j = blankByte then none else some (j, f j))) = true := by
    intro l hl
    induction l with
    | nil => rfl
    | cons a l ih =>
      obtain ⟨ha, hl⟩ := List.pairwise_cons.1 hl
      by_cases hfa : f a = blankByte
      · simpa [List.filterMap_cons, hfa] using ih hl
      · simp only [List.filterMap_cons, hfa, if_false]
        refine wf_cons.2 ⟨hfa, fun c hc => ?_, ih hl⟩
        obtain ⟨x, hx, hxc⟩ := List.mem_filterMap.1 hc
        by_cases hfx : f x = blankByte
        · simp [hfx] at hxc
        · simp only [hfx, if_false, Option.some.injEq] at hxc
          subst hxc
          exact ha x hx
  exact aux _ List.pairwise_lt_range

/-- A tabulated storage of `n` bytes lists none beyond them. -/
theorem tabulate_within (n : Nat) (f : Nat → Byte) : (Memory.tabulate n f).within n = true := by
  simp only [Memory.within, List.all_eq_true, decide_eq_true_eq]
  intro c hc
  obtain ⟨x, hx, hxc⟩ := List.mem_filterMap.1 hc
  by_cases hfx : f x = blankByte
  · simp [hfx] at hxc
  · simp only [hfx, if_false, Option.some.injEq] at hxc
    subst hxc
    simpa using hx

end Sys2Proof.Laws
end

