-- ==== Sys2Proof/Laws/Bits.lean ====
section
/-! SUPPORT. The laws of the bit stream: one bit of a byte, one bit of the storage, a field written and a field read. -/

namespace Sys2Proof.Laws

open Sys2Proof.Machine

/-! ## Bits of a byte -/

theorem blankByte_eq : blankByte = 0 := rfl

@[simp] theorem byteBit_blank (o : Nat) : byteBit blankByte o = false := by
  simp [byteBit, blankByte]

/-- A byte is its eight stream bits. -/
theorem byte_ext {b c : Byte} (h : ∀ o, o < 8 → byteBit b o = byteBit c o) : b = c := by
  apply BitVec.eq_of_getLsbD_eq
  intro i hi
  have := h (7 - i) (by omega)
  rwa [byteBit, byteBit, Nat.sub_sub_self (by omega)] at this

/-- A replaced bit reads as written, every other bit of the byte as before (R34). -/
theorem byteBit_setByteBit (b : Byte) (v : Bool) {o o' : Nat} (h : o < 8) (h' : o' < 8) :
    byteBit (setByteBit b o v) o' = if o' = o then v else byteBit b o' := by
  have key : (7 - o' = 7 - o) ↔ o' = o := by omega
  have hlt : 7 - o' < 8 := by omega
  cases v
  · by_cases hoo : o' = o
    · subst hoo
      simp [byteBit, setByteBit, hlt]
    · have : ¬ (7 - o' = 7 - o) := by omega
      simp [byteBit, setByteBit, hlt, hoo, this]
  · by_cases hoo : o' = o
    · subst hoo
      simp [byteBit, setByteBit, hlt]
    · have : ¬ (7 - o' = 7 - o) := by omega
      simp [byteBit, setByteBit, hlt, hoo, this]

/-- The stream bits of the byte a natural stands for. -/
theorem byteBit_byteOf (v : Nat) {o : Nat} (h : o < 8) : byteBit (byteOf v) o = v.testBit (7 - o) := by
  have : 7 - o < 8 := by omega
  rw [byteBit, byteOf, BitVec.getLsbD_ofNat]
  simp [this]

theorem byteBit_eq_testBit (b : Byte) (o : Nat) : byteBit b o = b.toNat.testBit (7 - o) := rfl

/-! ## Bits of the storage -/

/-- Storages in canonical form with the same stream bits are equal. -/
theorem memory_ext_sbit {m m' : Memory} (h : m.wf = true) (h' : m'.wf = true) (hb : ∀ p, m.sbit p = m'.sbit p) :
    m = m' := by
  refine memory_ext h h' fun j => byte_ext fun o ho => ?_
  have := hb (8 * j + o)
  rwa [Memory.sbit, Memory.sbit, show (8 * j + o) / 8 = j by omega, show (8 * j + o) % 8 = o by omega] at this

theorem setSBit_wf {m : Memory} (p : Nat) (b : Bool) (h : m.wf = true) : (m.setSBit p b).wf = true :=
  write_wf _ _ h

theorem setSBit_within {m : Memory} {p n : Nat} (b : Bool) (hp : p / 8 < n) (h : m.within n = true) :
    (m.setSBit p b).within n = true :=
  write_within _ hp h

/-- `SetSBit` (R34): the bit at `p` reads as set, every other bit as before. -/
theorem sbit_setSBit {m : Memory} (p : Nat) (b : Bool) (q : Nat) (h : m.wf = true) :
    (m.setSBit p b).sbit q = if q = p then b else m.sbit q := by
  have hp : p % 8 < 8 := Nat.mod_lt _ (by omega)
  have hq : q % 8 < 8 := Nat.mod_lt _ (by omega)
  by_cases hb : q / 8 = p / 8
  · have key : q = p ↔ q % 8 = p % 8 := by omega
    simp only [Memory.sbit, Memory.setSBit, read_write _ _ _ h, hb, if_true, byteBit_setByteBit _ _ hp hq, key]
  · have : q ≠ p := fun h => hb (by rw [h])
    simp only [Memory.sbit, Memory.setSBit, read_write _ _ _ h, hb, if_false, this]

/-- A position at or beyond the storage's bits reads 0 (R32). -/
theorem sbit_beyond {m : Memory} {n p : Nat} (h : m.within n = true) (hp : n ≤ p / 8) : m.sbit p = false := by
  simp [Memory.sbit, read_beyond h hp]

/-! ## A field written -/

/-- The field write one bit at a time, from the most significant one on. -/
theorem setField_foldl (m : Memory) (cap p n v : Nat) :
    m.setField cap p n v =
      (List.range n).foldl (fun m i => m.setSBit ((p + i) % cap) (v.testBit (n - 1 - i))) m := rfl

/-- What the first `k` bit writes of a field do. -/
theorem foldl_setSBit {m : Memory} (f : Nat → Nat) (g : Nat → Bool) (k : Nat) (h : m.wf = true) :
    let m' := (List.range k).foldl (fun m i => m.setSBit (f i) (g i)) m
    m'.wf = true ∧ (∀ p, (∀ i, i < k → p ≠ f i) → m'.sbit p = m.sbit p) ∧
      ((∀ i j, i < k → j < k → f i = f j → i = j) → ∀ i, i < k → m'.sbit (f i) = g i) ∧
      ∀ n, m.within n = true → (∀ i, i < k → f i / 8 < n) → m'.within n = true := by
  induction k with
  | zero => simp [h]
  | succ k ih =>
    obtain ⟨hwf, hother, hset, hin⟩ := ih
    simp only [List.range_succ, List.foldl_append, List.foldl_cons, List.foldl_nil]
    refine ⟨setSBit_wf _ _ hwf, fun p hp => ?_, fun hinj i hi => ?_, fun n hn hf => ?_⟩
    · rw [sbit_setSBit _ _ _ hwf, if_neg (hp k (by omega)), hother p fun i hi => hp i (by omega)]
    · rw [sbit_setSBit _ _ _ hwf]
      split_ifs with hfk
      · rw [hinj i k hi (by omega) hfk]
      · have hik : i ≠ k := fun h => hfk (by rw [h])
        exact hset (fun i j hi hj => hinj i j (by omega) (by omega)) i (by omega)
    · exact setSBit_within _ (hf k (by omega)) (hin n hn fun i hi => hf i (by omega))

/-- No field of at most CAP bits covers a position twice (R39). -/
theorem field_positions_injective {cap p n i j : Nat} (hn : n ≤ cap) (hi : i < n) (hj : j < n)
    (h : (p + i) % cap = (p + j) % cap) : i = j := by
  have := Nat.ModEq.add_left_cancel' p h
  rwa [Nat.ModEq, Nat.mod_eq_of_lt (by omega), Nat.mod_eq_of_lt (by omega)] at this

theorem setField_wf {m : Memory} (cap p n v : Nat) (h : m.wf = true) : (m.setField cap p n v).wf = true :=
  (foldl_setSBit _ _ n h).1

/-- The field positions hold the field, most significant bit first (R35, R81). -/
theorem sbit_setField {m : Memory} {cap p n : Nat} (v : Nat) {i : Nat} (h : m.wf = true) (hn : n ≤ cap) (hi : i < n) :
    (m.setField cap p n v).sbit ((p + i) % cap) = v.testBit (n - 1 - i) :=
  (foldl_setSBit (fun i => (p + i) % cap) (fun i => v.testBit (n - 1 - i)) n h).2.2.1
    (fun _ _ hi hj h => field_positions_injective hn hi hj h) i hi

/-- No bit outside the field is modified (R83). -/
theorem sbit_setField_other {m : Memory} {cap p n : Nat} (v : Nat) {q : Nat} (h : m.wf = true)
    (hq : ∀ i, i < n → q ≠ (p + i) % cap) : (m.setField cap p n v).sbit q = m.sbit q :=
  (foldl_setSBit (fun i => (p + i) % cap) (fun i => v.testBit (n - 1 - i)) n h).2.1 q hq

/-- A field written within the capacity stays within the storage. -/
theorem setField_within {m : Memory} {cap p n v : Nat} (h : m.wf = true) (hcap : 0 < cap) (h8 : cap % 8 = 0)
    (hin : m.within (cap / 8) = true) : (m.setField cap p n v).within (cap / 8) = true := by
  refine (foldl_setSBit (fun i => (p + i) % cap) (fun i => v.testBit (n - 1 - i)) n h).2.2.2 _ hin fun i _ => ?_
  have : (p + i) % cap < cap := Nat.mod_lt _ hcap
  omega

/-! ## A field read -/

@[simp] theorem field_zero (m : Memory) (cap p : Nat) : m.field cap p 0 = 0 := rfl

/-- One more bit of a field, by the rule of R35: the bits before it move up. -/
theorem field_succ (m : Memory) (cap p n : Nat) :
    m.field cap p (n + 1) = 2 * m.field cap p n + (m.sbit ((p + n) % cap)).toNat := by
  have hpow : ∀ i ∈ List.range n, (m.sbit ((p + i) % cap)).toNat * 2 ^ (n + 1 - 1 - i) =
      2 * ((m.sbit ((p + i) % cap)).toNat * 2 ^ (n - 1 - i)) := by
    intro i hi
    have hi : i < n := List.mem_range.1 hi
    rw [show n + 1 - 1 - i = (n - 1 - i) + 1 by omega, pow_succ]
    ring
  simp only [Memory.field, List.range_succ, List.map_append, List.map_cons, List.map_nil, List.sum_append,
    List.sum_cons, List.sum_nil]
  rw [List.map_congr_left hpow, List.sum_map_mul_left]
  simp

/-- A field of `n` bits is below `2^n` (R86). -/
theorem field_lt (m : Memory) (cap p n : Nat) : m.field cap p n < 2 ^ n := by
  induction n with
  | zero => simp
  | succ n ih =>
    have : (m.sbit ((p + n) % cap)).toNat ≤ 1 := Bool.toNat_le _
    rw [field_succ, pow_succ]
    omega

theorem bitsValue_append_singleton (bs : List Bool) (b : Bool) :
    bitsValue (bs ++ [b]) = 2 * bitsValue bs + b.toNat := by
  simp [bitsValue]

@[simp] theorem bitsValue_nil : bitsValue [] = 0 := rfl

/-- A field's value is the number its bits spell (R35). -/
theorem field_eq_bitsValue (m : Memory) (cap p n : Nat) :
    m.field cap p n = bitsValue ((List.range n).map (fun i => m.sbit ((p + i) % cap))) := by
  induction n with
  | zero => rfl
  | succ n ih => rw [field_succ, List.range_succ, List.map_append, List.map_cons, List.map_nil,
      bitsValue_append_singleton, ih]

/-- The bits of a field in stream order, one more at the front. -/
theorem fieldBits_succ (n v : Nat) : fieldBits (n + 1) v = fieldBits n (v / 2) ++ [v.testBit 0] := by
  simp only [fieldBits, List.range_succ, List.map_append, List.map_cons, List.map_nil]
  congr 1
  · refine List.map_congr_left fun i hi => ?_
    have hi : i < n := List.mem_range.1 hi
    rw [show n + 1 - 1 - i = (n - 1 - i) + 1 by omega, Nat.testBit_succ]
  · simp

@[simp] theorem fieldBits_length (n v : Nat) : (fieldBits n v).length = n := by simp [fieldBits]

/-- Writing a value's bits down and reading them as a number gives its low bits back. -/
theorem bitsValue_fieldBits (n v : Nat) : bitsValue (fieldBits n v) = v % 2 ^ n := by
  induction n generalizing v with
  | zero => simp [fieldBits, Nat.mod_one]
  | succ n ih =>
    have h : (v.testBit 0).toNat = v % 2 := by
      rw [Nat.testBit_zero]
      rcases Nat.mod_two_eq_zero_or_one v with h | h <;> simp [h]
    rw [fieldBits_succ, bitsValue_append_singleton, ih, h, pow_succ, mul_comm (2 ^ n) 2, Nat.mod_mul]
    omega

end Sys2Proof.Laws
end

