-- ==== Sys2Proof/Laws/Growth.lean ====
section
/-! SUPPORT. What growth does, said once: its target (R71), its edge zeroing (R75) and the new storage bit by bit
(R73 to R76). -/

namespace Sys2Proof.Laws

open Sys2Proof.Machine

/-- The doubling loop stops at the least doubling that makes room, if its bound lets it get there (R71). -/
theorem doubleUntil_least {fuel cap need : Nat} (h : need ≤ cap * 2 ^ fuel) (hf : 0 < fuel) :
    ∃ m, doubleUntil fuel cap need = cap * 2 ^ m ∧ LeastDoubling cap need m := by
  induction fuel generalizing cap with
  | zero => omega
  | succ fuel ih =>
    simp only [doubleUntil]
    split_ifs with hn
    · exact ⟨1, by ring, le_refl _, by omega, fun j h1 h2 => by omega⟩
    · have hfuel : 0 < fuel := by
        rcases Nat.eq_zero_or_pos fuel with rfl | h0
        · simp only [zero_add, pow_one] at h
          omega
        · exact h0
      obtain ⟨m, hm, h1, h2, h3⟩ := ih (cap := 2 * cap) (by rw [pow_succ] at h; linarith) hfuel
      refine ⟨m + 1, by rw [hm, pow_succ]; ring, by omega, by rw [pow_succ]; linarith, fun j hj1 hj2 => ?_⟩
      obtain ⟨j, rfl⟩ : ∃ i, j = i + 1 := ⟨j - 1, by omega⟩
      rcases Nat.eq_zero_or_pos j with rfl | hj
      · omega
      · have := h3 j (by omega) (by omega)
        rw [pow_succ]
        linarith

/-- Two least doublings are the same one. -/
theorem leastDoubling_unique {cap need m m' : Nat} (h : LeastDoubling cap need m) (h' : LeastDoubling cap need m') :
    m = m' := by
  obtain ⟨h1, h2, h3⟩ := h
  obtain ⟨h1', h2', h3'⟩ := h'
  rcases Nat.lt_trichotomy m m' with hlt | heq | hlt
  · exact absurd (h3' m h1 hlt) (by omega)
  · exact heq
  · exact absurd (h3 m' h1' hlt) (by omega)

/-- The bit-level and the byte-level wrap agree (R33). -/
theorem position_wrap (cap a p : Nat) (h8 : cap % 8 = 0) :
    (8 * a + p) % cap / 8 = (a + p / 8) % (cap / 8) ∧ (8 * a + p) % cap % 8 = p % 8 := by
  obtain ⟨c, rfl⟩ : ∃ c, cap = 8 * c := ⟨cap / 8, by omega⟩
  have h1 : (8 * a + p) / 8 = a + p / 8 := by omega
  have h2 : (8 * a + p) % 8 = p % 8 := by omega
  have h3 : 8 * c / 8 = c := by omega
  rw [Nat.mod_mul, h1, h2, h3]
  have : p % 8 < 8 := Nat.mod_lt _ (by omega)
  omega

/-- The `k` most significant bits of a byte cleared (R75). -/
theorem byteBit_clearHigh (b : Byte) {k o : Nat} (hk : k < 8) (ho : o < 8) :
    byteBit (byteOf (b.toNat % 2 ^ (8 - k))) o = (decide (k ≤ o) && byteBit b o) := by
  rw [byteBit_byteOf _ ho, Nat.testBit_mod_two_pow, byteBit_eq_testBit]
  congr 1
  simp only [decide_eq_decide]
  omega

/-- The bits of a byte from offset `k` on cleared (R75). -/
theorem byteBit_clearLow (b : Byte) {k o : Nat} (hk : k < 8) (ho : o < 8) :
    byteBit (byteOf (b.toNat - b.toNat % 2 ^ (8 - k))) o = (decide (o < k) && byteBit b o) := by
  have hsub : b.toNat - b.toNat % 2 ^ (8 - k) = 2 ^ (8 - k) * (b.toNat / 2 ^ (8 - k)) := by
    have := Nat.div_add_mod b.toNat (2 ^ (8 - k))
    omega
  rw [byteBit_byteOf _ ho, hsub, Nat.testBit_two_pow_mul, Nat.testBit_div_two_pow, byteBit_eq_testBit]
  by_cases h : o < k
  · have h1 : 8 - k ≤ 7 - o := by omega
    simp [h, h1]
  · have h1 : ¬ 8 - k ≤ 7 - o := by omega
    simp [h, h1]

theorem zeroEdges_wf {m : Memory} (k w : Nat) (h : m.wf = true) : (zeroEdges m k w).wf = true :=
  write_wf _ _ (write_wf _ _ h)

theorem zeroEdges_within {m : Memory} {k w n : Nat} (h : m.within n = true) (hw : w / 8 < n) :
    (zeroEdges m k w).within n = true :=
  write_within _ hw (write_within _ (by omega) h)

/-- Edge zeroing (R75), bit by bit: the positions below `k`, and those of byte `w div 8` from `w` on, become 0. -/
theorem sbit_zeroEdges {m : Memory} {k : Nat} (w p : Nat) (hk : k < 8) (h : m.wf = true) :
    (zeroEdges m k w).sbit p = if p < k ∨ (p / 8 = w / 8 ∧ w ≤ p) then false else m.sbit p := by
  have hp : p % 8 < 8 := Nat.mod_lt _ (by omega)
  have hw : w % 8 < 8 := Nat.mod_lt _ (by omega)
  simp only [zeroEdges, Memory.sbit, read_write _ _ _ (write_wf _ _ h), read_write _ _ _ h]
  by_cases he : p / 8 = w / 8
  · have hle : w ≤ p ↔ ¬ p % 8 < w % 8 := by omega
    by_cases h0 : w / 8 = 0
    · have hpk : p < k ↔ ¬ k ≤ p % 8 := by omega
      simp only [he, h0, if_true, byteBit_clearLow _ hw hp, byteBit_clearHigh _ hk hp, hpk, hle, true_and]
      by_cases h1 : k ≤ p % 8 <;> by_cases h2 : p % 8 < w % 8 <;> simp [h1, h2]
    · have hpk : ¬ p < k := by omega
      simp only [he, h0, if_true, if_false, byteBit_clearLow _ hw hp, hpk, hle, true_and, false_or]
      by_cases h2 : p % 8 < w % 8 <;> simp [h2]
  · by_cases h0 : p / 8 = 0
    · have hpk : p < k ↔ ¬ k ≤ p % 8 := by omega
      have he0 : ¬ 0 = w / 8 := by omega
      simp only [h0, he0, if_true, if_false, byteBit_clearHigh _ hk hp, hpk, false_and, or_false]
      by_cases h1 : k ≤ p % 8 <;> simp [h1]
    · have hpk : ¬ p < k := by omega
      simp [he, h0, hpk]

/-- The relocated bytes, bit by bit (R73, R76). -/
theorem sbit_relocated (s : State) (p : Nat) (h8 : s.cap % 8 = 0) :
    s.relocated.sbit p =
      if p / 8 < s.copiedBytes then s.store.sbit ((8 * (s.rc / 8) + p) % s.cap) else false := by
  obtain ⟨h1, h2⟩ := position_wrap s.cap (s.rc / 8) p h8
  simp only [Memory.sbit, State.relocated, read_tabulate, h1, h2]
  split_ifs
  · rfl
  · simp

/-- Growth, bit by bit: the occupied bits stand from `k = RC mod 8` on, in order, and every other bit is 0
(R73 to R76). -/
theorem sbit_growTo (s : State) (newCap p : Nat) (h8 : s.cap % 8 = 0) :
    (s.growTo newCap).store.sbit p =
      if s.rc % 8 ≤ p ∧ p < s.rc % 8 + s.size then s.store.sbit ((s.rc + (p - s.rc % 8)) % s.cap) else false := by
  have hk : s.rc % 8 < 8 := Nat.mod_lt _ (by omega)
  have hwf : s.relocated.wf = true := tabulate_wf _ _
  rw [growTo_store, sbit_zeroEdges _ _ hk hwf, sbit_relocated s p h8]
  have hN : s.copiedBytes = (s.rc % 8 + s.size + 7) / 8 := rfl
  by_cases hin : s.rc % 8 ≤ p ∧ p < s.rc % 8 + s.size
  · have h1 : ¬ (p < s.rc % 8 ∨ p / 8 = (s.size + s.rc % 8) / 8 ∧ s.size + s.rc % 8 ≤ p) := by omega
    have h2 : p / 8 < s.copiedBytes := by omega
    have h3 : 8 * (s.rc / 8) + p = s.rc + (p - s.rc % 8) := by omega
    rw [if_neg h1, if_pos h2, if_pos hin, h3]
  · rw [if_neg hin]
    split_ifs with h1 h2
    · rfl
    · exfalso
      omega
    · rfl

theorem growTo_storeWf (s : State) (newCap : Nat) : (s.growTo newCap).store.wf = true :=
  zeroEdges_wf _ _ (tabulate_wf _ _)

theorem growTo_storeWithin (s : State) {newCap : Nat} (h : s.size + s.rc % 8 < newCap) (h8 : newCap % 8 = 0) :
    (s.growTo newCap).store.within (newCap / 8) = true := by
  rw [growTo_store]
  refine zeroEdges_within (within_mono (tabulate_within _ _) ?_) (by omega)
  have hN : s.copiedBytes = (s.rc % 8 + s.size + 7) / 8 := rfl
  omega

/-- Growth to a larger capacity keeps the occupied size (R74). -/
theorem growTo_size (s : State) {newCap : Nat} (h : s.size < newCap) : (s.growTo newCap).size = s.size := by
  have : newCap + (s.size + s.rc % 8) - s.rc % 8 = newCap + s.size := by omega
  simp only [State.size, growTo_full, growTo_cap, growTo_wc, growTo_rc] at h ⊢
  simp only [Bool.false_eq_true, if_false]
  rw [show newCap + ((if s.full = true then s.cap else (s.cap + s.wc - s.rc) % s.cap) + s.rc % 8) - s.rc % 8 =
    (if s.full = true then s.cap else (s.cap + s.wc - s.rc) % s.cap) + newCap by omega, Nat.add_mod_right,
    Nat.mod_eq_of_lt h]

end Sys2Proof.Laws
end

