-- ==== Sys2Proof/Laws/Exec.lean ====
section
/-! SUPPORT. What each command can do, said once: the inversion lemmas of `exec` that later proofs cite instead of
unfolding a meaning. -/

namespace Sys2Proof.Laws

open Sys2Proof.Machine

/-- Every answer of a command, written as one of the ways a state can end it. -/
theorem execWrite_cases (bits : Int) (s : State) :
    ((s.cfg.vw : Int) < bits ∧ execWrite bits s = .next (s.respond .errWidth 0)) ∨
    (bits ≤ 0 ∧ execWrite bits s = .next (s.respond .ok 0)) ∨
    ∃ n : Nat, bits = n ∧ 0 < n ∧ n ≤ s.cfg.vw ∧
      ((n + s.size ≤ s.cap ∧ execWrite bits s = .next ((s.append n s.operand).respond .ok 0)) ∨
       (s.cap < n + s.size ∧ s.cfg.maxBytes < s.targetCap n / 8 ∧
         execWrite bits s = .next (s.respond .errAlloc 0)) ∨
       (s.cap < n + s.size ∧ s.targetCap n / 8 ≤ s.cfg.maxBytes ∧
         execWrite bits s = .next (((s.growTo (s.targetCap n)).append n s.operand).respond .ok 0))) := by
  by_cases hw : (s.cfg.vw : Int) < bits
  · exact .inl ⟨hw, by simp [execWrite, State.tooWide, hw, raise_eq_respond]⟩
  by_cases h0 : bits ≤ 0
  · exact .inr (.inl ⟨h0, by simp [execWrite, State.tooWide, hw, h0]⟩)
  refine .inr (.inr ⟨bits.toNat, by omega, by omega, by omega, ?_⟩)
  have he : execWrite bits s = .next (s.writeBits bits.toNat) := by simp [execWrite, State.tooWide, hw, h0]
  rw [he]
  by_cases hg : s.cap < bits.toNat + s.size
  · by_cases ha : s.cfg.maxBytes < s.targetCap bits.toNat / 8
    · exact .inr (.inl ⟨hg, ha, by
        simp [State.writeBits, State.mustGrow, State.cannotAllocate, hg, ha, raise_eq_respond]⟩)
    · exact .inr (.inr ⟨hg, by omega, by
        simp [State.writeBits, State.mustGrow, State.cannotAllocate, hg, ha]⟩)
  · exact .inl ⟨by omega, by simp [State.writeBits, State.mustGrow, hg]⟩

theorem execRead_cases (bits : Int) (s : State) :
    ((s.cfg.vw : Int) < bits ∧ execRead bits s = .next (s.respond .errWidth 0)) ∨
    (bits ≤ 0 ∧ execRead bits s = .next (s.respond .ok 0)) ∨
    ∃ n : Nat, bits = n ∧ 0 < n ∧ n ≤ s.cfg.vw ∧
      execRead bits s = .next ((s.advance n).respond .ok (s.oldest n)) := by
  by_cases hw : (s.cfg.vw : Int) < bits
  · exact .inl ⟨hw, by simp [execRead, State.tooWide, hw, raise_eq_respond]⟩
  by_cases h0 : bits ≤ 0
  · exact .inr (.inl ⟨h0, by simp [execRead, State.tooWide, hw, h0]⟩)
  have hb : bits = (bits.toNat : Int) := by omega
  refine .inr (.inr ⟨bits.toNat, hb, by omega, by omega, ?_⟩)
  rw [← hb]
  simp [execRead, State.tooWide, hw, h0]

theorem execPeek_cases (bits : Int) (s : State) :
    ((s.cfg.vw : Int) < bits ∧ execPeek bits s = .next (s.respond .errWidth 0)) ∨
    (bits ≤ 0 ∧ execPeek bits s = .next (s.respond .ok 0)) ∨
    ∃ n : Nat, bits = n ∧ 0 < n ∧ n ≤ s.cfg.vw ∧ execPeek bits s = .next (s.respond .ok (s.oldest n)) := by
  by_cases hw : (s.cfg.vw : Int) < bits
  · exact .inl ⟨hw, by simp [execPeek, State.tooWide, hw, raise_eq_respond]⟩
  by_cases h0 : bits ≤ 0
  · exact .inr (.inl ⟨h0, by simp [execPeek, State.tooWide, hw, h0]⟩)
  have hb : bits = (bits.toNat : Int) := by omega
  refine .inr (.inr ⟨bits.toNat, hb, by omega, by omega, ?_⟩)
  rw [← hb]
  simp [execPeek, State.tooWide, hw, h0]

theorem execDbgByte_cases (index : Nat) (s : State) :
    (s.cap / 8 ≤ index ∧ execDbgByte index s = .next (s.respond .errRange 0)) ∨
    (index < s.cap / 8 ∧ execDbgByte index s = .next (s.respond .ok (s.store.read index).toNat)) := by
  by_cases h : s.cap / 8 ≤ index
  · exact .inl ⟨h, by simp [execDbgByte, State.outOfRange, State.storeBytes, h, raise_eq_respond]⟩
  · exact .inr ⟨by omega, by simp [execDbgByte, State.outOfRange, State.storeBytes, h]⟩

@[simp] theorem exec_write (bits : Int) (s : State) : exec (.write bits) s = execWrite bits s := rfl
@[simp] theorem exec_read (bits : Int) (s : State) : exec (.read bits) s = execRead bits s := rfl
@[simp] theorem exec_peek (bits : Int) (s : State) : exec (.peek bits) s = execPeek bits s := rfl
@[simp] theorem exec_size (s : State) : exec .size s = .next (s.respond .ok s.size) := rfl
@[simp] theorem exec_clear (s : State) : exec .clear s = .next (s.cleared.respond .ok 0) := rfl
@[simp] theorem exec_dbgByte (index : Nat) (s : State) : exec (.dbgByte index) s = execDbgByte index s := rfl
@[simp] theorem exec_dbgState (s : State) : exec .dbgState s = .next (s.respond .ok s.packed) := rfl

/-- The ways a command can leave the buffer, before its response: unchanged, read from, cleared, written to, or grown
and written to. -/
inductive Effect (i : Instr) (s : State) : State → Prop where
  | unchanged : Effect i s s
  | advanced (n : Nat) (h : i = .read n) (h0 : 0 < n) (hv : n ≤ s.cfg.vw) : Effect i s (s.advance n)
  | cleared (h : i = .clear) : Effect i s s.cleared
  | appended (n : Nat) (h : i = .write n) (h0 : 0 < n) (hv : n ≤ s.cfg.vw) (hfit : n + s.size ≤ s.cap) :
      Effect i s (s.append n s.operand)
  | grown (n : Nat) (h : i = .write n) (h0 : 0 < n) (hv : n ≤ s.cfg.vw) (hfull : s.cap < n + s.size)
      (halloc : s.targetCap n / 8 ≤ s.cfg.maxBytes) :
      Effect i s ((s.growTo (s.targetCap n)).append n s.operand)

/-- Every command, in every state, ends in one response after one of those effects; an error has none and result 0. -/
theorem exec_effect (i : Instr) (s : State) :
    ∃ b st r, Effect i s b ∧ exec i s = .next (b.respond st r) ∧ (st ≠ .ok → b = s ∧ r = 0) := by
  cases i with
  | write bits =>
    rcases execWrite_cases bits s with ⟨_, h⟩ | ⟨_, h⟩ | ⟨n, rfl, h0, hv, ⟨hf, h⟩ | ⟨_, _, h⟩ | ⟨hg, ha, h⟩⟩
    · exact ⟨s, _, _, .unchanged, h, fun _ => ⟨rfl, rfl⟩⟩
    · exact ⟨s, _, _, .unchanged, h, fun _ => ⟨rfl, rfl⟩⟩
    · exact ⟨_, _, _, .appended n rfl h0 hv hf, h, fun h => absurd rfl h⟩
    · exact ⟨s, _, _, .unchanged, h, fun _ => ⟨rfl, rfl⟩⟩
    · exact ⟨_, _, _, .grown n rfl h0 hv hg ha, h, fun h => absurd rfl h⟩
  | read bits =>
    rcases execRead_cases bits s with ⟨_, h⟩ | ⟨_, h⟩ | ⟨n, rfl, h0, hv, h⟩
    · exact ⟨s, _, _, .unchanged, h, fun _ => ⟨rfl, rfl⟩⟩
    · exact ⟨s, _, _, .unchanged, h, fun _ => ⟨rfl, rfl⟩⟩
    · exact ⟨_, _, _, .advanced n rfl h0 hv, h, fun h => absurd rfl h⟩
  | peek bits =>
    rcases execPeek_cases bits s with ⟨_, h⟩ | ⟨_, h⟩ | ⟨n, rfl, h0, hv, h⟩
    · exact ⟨s, _, _, .unchanged, h, fun _ => ⟨rfl, rfl⟩⟩
    · exact ⟨s, _, _, .unchanged, h, fun _ => ⟨rfl, rfl⟩⟩
    · exact ⟨s, _, _, .unchanged, h, fun h => absurd rfl h⟩
  | size => exact ⟨s, _, _, .unchanged, rfl, fun h => absurd rfl h⟩
  | clear => exact ⟨_, _, _, .cleared rfl, rfl, fun h => absurd rfl h⟩
  | dbgByte index =>
    rcases execDbgByte_cases index s with ⟨_, h⟩ | ⟨_, h⟩
    · exact ⟨s, _, _, .unchanged, h, fun _ => ⟨rfl, rfl⟩⟩
    · exact ⟨s, _, _, .unchanged, h, fun h => absurd rfl h⟩
  | dbgState => exact ⟨s, _, _, .unchanged, rfl, fun h => absurd rfl h⟩

end Sys2Proof.Laws
end

