-- ==== Sys2Proof/Laws/PerInstr.lean ====
section
/-! SUPPORT. A family of lemmas per instruction: each command's word matches its row of the opcode map (R55). -/

namespace Sys2Proof.Laws

/-- The word of a command has its row's fixed bits, whatever its operands (R55). -/
def RowMatch.Statement (i : Instr) : Prop := encode i &&& rowMask i = rowMatch i

/-- The fixed bits of a format C word are its opcode and `Z12 = 0` (R52). -/
theorem countWord_and_mask (op : BitVec 4) (bits : Int) :
    countWord op bits &&& 0xFFFF0000#32 = countWord op 0 := by
  unfold countWord
  generalize BitVec.ofInt 16 bits = b
  apply BitVec.eq_of_getLsbD_eq
  intro k hk
  simp only [BitVec.getLsbD_and, BitVec.getLsbD_append]
  interval_cases k <;> simp

/-- The fixed bits of a format X word are its opcode (R54). -/
theorem indexWord_and_mask (op : BitVec 4) (index : Nat) :
    indexWord op index &&& 0xF0000000#32 = indexWord op 0 := by
  unfold indexWord
  generalize BitVec.ofNat 28 index = b
  apply BitVec.eq_of_getLsbD_eq
  intro k hk
  simp only [BitVec.getLsbD_and, BitVec.getLsbD_append]
  interval_cases k <;> simp

theorem RowMatch.write (bits : Int) : RowMatch.Statement (.write bits) := countWord_and_mask _ _
theorem RowMatch.read (bits : Int) : RowMatch.Statement (.read bits) := countWord_and_mask _ _
theorem RowMatch.peek (bits : Int) : RowMatch.Statement (.peek bits) := countWord_and_mask _ _
theorem RowMatch.size : RowMatch.Statement .size := rfl
theorem RowMatch.clear : RowMatch.Statement .clear := rfl
theorem RowMatch.dbgByte (index : Nat) : RowMatch.Statement (.dbgByte index) := indexWord_and_mask _ _
theorem RowMatch.dbgState : RowMatch.Statement .dbgState := rfl

end Sys2Proof.Laws
end

