-- ==== Sys2Proof/Laws/Step.lean ====
section
/-! SUPPORT. What a clock edge can do, said once. -/

namespace Sys2Proof.Laws

open Sys2Proof.Machine

/-- A command in progress that ends: decoded and run, or answered ERR_ILLEGAL. -/
theorem finish_cases (s : State) (c : Command) :
    (∃ i, decode c.word = .ok i ∧ s.finish c = exec i s) ∨
    (∃ e, decode c.word = .error e ∧ s.finish c = .next (s.respond .errIllegal 0)) := by
  unfold State.finish
  cases h : decode c.word with
  | ok i => exact .inl ⟨i, rfl, rfl⟩
  | error e => exact .inr ⟨e, rfl, rfl⟩

/-- The ways one edge goes (R111 to R116), `s` being the state after the host's list has moved on. -/
theorem clockEdge_cases (s : State) (p : PortIn) :
    (p.rst = true ∧ s.clockEdge p = .next s.resetEdge) ∨
    (p.rst = false ∧ ∃ c, s.phase = .busy c 0 ∧ s.clockEdge p = s.finish c) ∨
    (p.rst = false ∧ ∃ c left, s.phase = .busy c (left + 1) ∧
      s.clockEdge p = .next { s with phase := .busy c left, rspValid := false }) ∨
    (p.rst = false ∧ s.phase = .idle ∧ p.cmdValid = false ∧ s.clockEdge p = .next { s with rspValid := false }) ∨
    (p.rst = false ∧ s.phase = .idle ∧ p.cmdValid = true ∧ s.clockEdge p = s.accept (s.sampled p)) := by
  cases hr : p.rst with
  | true => exact .inl ⟨rfl, by simp [State.clockEdge, hr]⟩
  | false =>
    cases hp : s.phase with
    | idle =>
      cases hv : p.cmdValid with
      | false => exact .inr (.inr (.inr (.inl ⟨rfl, rfl, rfl, by simp [State.clockEdge, hr, hp, hv]⟩)))
      | true => exact .inr (.inr (.inr (.inr ⟨rfl, rfl, rfl, by simp [State.clockEdge, hr, hp, hv]⟩)))
    | busy c left =>
      cases left with
      | zero => exact .inr (.inl ⟨rfl, c, rfl, by simp [State.clockEdge, hr, hp]⟩)
      | succ left => exact .inr (.inr (.inl ⟨rfl, c, left, rfl, by simp [State.clockEdge, hr, hp]⟩))

/-- The two ways of an accepting edge (R113, R114). -/
theorem accept_cases (s : State) (c : Command) :
    (s.busyCycles.headD 0 = 0 ∧ s.accept c =
      State.finish { s with rspValid := false, busyCycles := s.busyCycles.tail, phase := .busy c 0 } c) ∨
    (∃ left, s.busyCycles.headD 0 = left + 1 ∧ s.accept c = .next
      { s with rspValid := false, busyCycles := s.busyCycles.tail, phase := .busy c left }) := by
  unfold State.accept
  cases h : s.busyCycles.headD 0 with
  | zero => exact .inl ⟨rfl, rfl⟩
  | succ left => exact .inr ⟨left, rfl, rfl⟩

/-- A step of a BRB core is one cycle. -/
theorem step_of_wf {s : State} (h : s.cfg.Wf) :
    step s = State.clockEdge { s with inputs := s.inputs.tail } s.driven := by
  rw [step, if_pos h]
  rfl

/-- A step that answers a next state is one of a BRB core's configuration. -/
theorem wf_of_step {s t : State} (h : step s = .next t) : s.cfg.Wf := by
  unfold step at h
  split at h
  · assumption
  · cases h

/-- One cycle, then the others. -/
theorem cycles_succ {s t : State} (n : Nat) (h : step s = .next t) : s.cycles (n + 1) = t.cycles n := by
  simp only [State.cycles, h]

theorem cycles_zero (s : State) : s.cycles 0 = .next s := rfl

/-- A finished command has answered, in PHASE IDLE, and touched neither the configuration nor the environment. -/
theorem finish_next (s : State) (c : Command) :
    ∃ t, s.finish c = .next t ∧ t.rspValid = true ∧ t.phase = .idle ∧ t.cfg = s.cfg ∧ t.inputs = s.inputs ∧
      t.busyCycles = s.busyCycles := by
  rcases finish_cases s c with ⟨i, _, h⟩ | ⟨_, _, h⟩
  · obtain ⟨b, st, r, he, hx, _⟩ := exec_effect i s
    refine ⟨_, h.trans hx, rfl, rfl, ?_, ?_, ?_⟩ <;> cases he <;> rfl
  · exact ⟨_, h, rfl, rfl, rfl, rfl, rfl⟩

end Sys2Proof.Laws
end

