-- ==== Sys2Proof/Laws/Stream.lean ====
section
/-! SUPPORT. What the invariants give (R21 to R23), and the occupied size after each way a command can end. -/

namespace Sys2Proof.Laws

open Sys2Proof.Machine

/-- The invariants from checks that compute, `m` being the number of doublings of the capacity. -/
theorem inv_of_checks (s : State) (m : Nat)
    (h : s.cfg.Wf ∧ (s.cap = s.cfg.initBytes * 8 * 2 ^ m ∧ s.cap ≤ s.cfg.maxBytes * 8) ∧ s.rc < s.cap ∧ s.wc < s.cap ∧
      (s.full = true → s.rc = s.wc) ∧ s.size ≤ s.cap ∧ s.store.wf = true ∧ s.store.within s.storeBytes = true ∧
      s.rspResult < 2 ^ s.cfg.vw ∧ (s.rspStatus ≠ .ok → s.rspResult = 0) ∧ s.operand < 2 ^ s.cfg.vw ∧
      (s.cmdReady = false → s.rspValid = false)) : s.Inv := by
  obtain ⟨h1, ⟨h2, h3⟩, h4, h5, h6, h7, h8, h9, h10, h11, h12, h13⟩ := h
  exact ⟨h1, ⟨⟨m, h2⟩, h3⟩, h4, h5, h6, h7, h8, h9, h10, h11, h12, h13⟩

/-- A legal capacity is a multiple of 8 (R16). -/
theorem cap_mod_eight {s : State} (h : s.Inv) : s.cap % 8 = 0 := by
  obtain ⟨m, hm⟩ := h.legalCap.1
  rw [hm, show s.cfg.initBytes * 8 * 2 ^ m = 8 * (s.cfg.initBytes * 2 ^ m) by ring]
  omega

theorem cap_pos {s : State} (h : s.Inv) : 0 < s.cap := by
  have := h.rcInRange
  omega

/-- WC stands right after the occupied bits (R17, R23). -/
theorem wc_after_occupied {s : State} (h : s.Inv) : (s.rc + s.size) % s.cap = s.wc := by
  have h1 := h.rcInRange
  have h2 := h.wcInRange
  have h3 := h.fullCursors
  cases hf : s.full
  · simp only [State.size, hf, Bool.false_eq_true, if_false, Nat.add_mod_mod]
    rw [show s.rc + (s.cap + s.wc - s.rc) = s.wc + s.cap by omega, Nat.add_mod_right]
    exact Nat.mod_eq_of_lt h2
  · have := h3 hf
    simp only [State.size, hf, if_true, Nat.add_mod_right]
    rw [Nat.mod_eq_of_lt h1, this]

/-- What READ and PEEK return is the number the oldest occupied bits spell (R23, R35, R86). -/
theorem oldest_eq_bitsValue (s : State) (n : Nat) : s.oldest n = bitsValue (s.contents.take n) := by
  unfold State.oldest
  rw [clamped_natCast, field_eq_bitsValue, State.contents, ← List.map_take, List.take_range]

/-- The target of growth is the least doubling that makes room (R71). -/
theorem targetCap_eq {s : State} {n m : Nat} (hc : 0 < s.cap) (h : LeastDoubling s.cap (n + s.size) m)
    (hn : 0 < n) : s.targetCap n = s.cap * 2 ^ m := by
  have hp : n + s.size ≤ s.cap * 2 ^ (n + s.size) := by
    have := @Nat.lt_two_pow_self (n + s.size)
    nlinarith
  obtain ⟨m', e, h6⟩ := doubleUntil_least hp (by omega)
  rw [State.targetCap, e, leastDoubling_unique h6 h]

/-- A field appended where it fits adds its width to the occupied size (R22, R84). -/
theorem append_size {s : State} {n : Nat} (v : Nat) (hi : s.Inv) (hn : n + s.size ≤ s.cap) (h0 : 0 < n) :
    (s.append n v).size = n + s.size := by
  have h6 := wc_after_occupied hi
  have h1 := hi.rcInRange
  have hw : (s.wc + n) % s.cap = (s.rc + (n + s.size)) % s.cap := by
    rw [← h6, Nat.mod_add_mod]
    congr 1
    omega
  have hd : (s.append n v).size =
      if (s.wc + n) % s.cap = s.rc then s.cap else (s.cap + (s.wc + n) % s.cap - s.rc) % s.cap := by
    simp only [State.size, append_full, append_cap, append_wc, append_rc]
    by_cases h : (s.wc + n) % s.cap = s.rc <;> simp [h]
  rw [hd, hw]
  generalize s.size = S at *
  rcases Nat.lt_or_ge (s.rc + (n + S)) s.cap with hc | hc
  · rw [Nat.mod_eq_of_lt hc, if_neg (by omega), show s.cap + (s.rc + (n + S)) - s.rc = n + S + s.cap by omega,
      Nat.add_mod_right, Nat.mod_eq_of_lt (by omega)]
  · rw [Nat.mod_eq_sub_mod hc, Nat.mod_eq_of_lt (by omega)]
    by_cases he : n + S = s.cap
    · rw [if_pos (by omega)]
      omega
    · rw [if_neg (by omega), show s.cap + (s.rc + (n + S) - s.cap) - s.rc = n + S by omega,
        Nat.mod_eq_of_lt (by omega)]

end Sys2Proof.Laws
end

