-- ==== Sys2Proof/Laws/Words.lean ====
section
/-! SUPPORT. The fields of a command word read as numbers (R10, R51 to R54), and the numbers of the words the encoder
writes. -/

namespace Sys2Proof.Laws

open Sys2Proof.Machine

theorem opField_toNat (w : Word) : (opField w).toNat = w.toNat / 2 ^ 28 := by
  have := w.isLt
  simp [opField, BitVec.extractLsb'_toNat, Nat.shiftRight_eq_div_pow]
  omega

theorem z12Field_toNat (w : Word) : (z12Field w).toNat = w.toNat / 2 ^ 16 % 2 ^ 12 := by
  simp [z12Field, BitVec.extractLsb'_toNat, Nat.shiftRight_eq_div_pow]

theorem bitsField_toNat (w : Word) : (bitsField w).toNat = w.toNat % 2 ^ 16 := by
  simp [bitsField, BitVec.extractLsb'_toNat]

theorem low28Field_toNat (w : Word) : (low28Field w).toNat = w.toNat % 2 ^ 28 := by
  simp [low28Field, BitVec.extractLsb'_toNat]

theorem z12Field_eq_zero (w : Word) : z12Field w = 0 ↔ w.toNat / 2 ^ 16 % 2 ^ 12 = 0 := by
  rw [← z12Field_toNat, BitVec.toNat_eq]
  simp

theorem low28Field_eq_zero (w : Word) : low28Field w = 0 ↔ w.toNat % 2 ^ 28 = 0 := by
  rw [← low28Field_toNat, BitVec.toNat_eq]
  simp

/-- The count of a format C word, read as a bit vector or as a number (R11, R56). -/
theorem sext16_bitsField (w : Word) : sext16 (bitsField w) = countOf w := by
  have hm : (bitsField w).getLsbD 15 = decide (2 ^ 15 ≤ w.toNat % 2 ^ 16) := by
    rw [← bitsField_toNat]
    have hl := (bitsField w).isLt
    rw [BitVec.getLsbD, Nat.testBit_eq_decide_div_mod_eq, decide_eq_decide]
    omega
  rw [sext16, hm, bitsField_toNat, countOf]
  by_cases h : w.toNat % 2 ^ 16 < 2 ^ 15
  · rw [if_pos h, if_neg (by simpa using h)]
  · rw [if_neg h, if_pos (by simpa using h)]

theorem countWord_toNat (op : BitVec 4) (b : Int) :
    (countWord op b).toNat = op.toNat * 2 ^ 28 + (b % 2 ^ 16).toNat := by
  have h : (b % 2 ^ 16).toNat < 2 ^ 16 := by omega
  simp only [countWord, BitVec.toNat_append, BitVec.toNat_ofInt, BitVec.toNat_ofNat]
  have e : (b % ((2 ^ 16 : ℕ) : ℤ)).toNat = (b % 2 ^ 16).toNat := by norm_num
  rw [e, ← Nat.shiftLeft_add_eq_or_of_lt h, ← Nat.shiftLeft_add_eq_or_of_lt (by norm_num)]
  simp [Nat.shiftLeft_eq]
  ring

theorem indexWord_toNat (op : BitVec 4) (i : Nat) : (indexWord op i).toNat = op.toNat * 2 ^ 28 + i % 2 ^ 28 := by
  simp only [indexWord, BitVec.toNat_append, BitVec.toNat_ofNat]
  rw [← Nat.shiftLeft_add_eq_or_of_lt (Nat.mod_lt _ (by norm_num)), Nat.shiftLeft_eq]

end Sys2Proof.Laws
end

