-- ==== Sys2Proof/Tests/Slice0.lean ====
section
/-! SUPPORT. The model's own tests: ill-formed terms refused, words written out bit by bit, one step each of the spec's
vectors (95_test_vectors.md), and for every obligation with hypotheses a witness that meets them all. -/

namespace Sys2Proof.Tests

open Sys2Proof.Machine Sys2Proof.Laws

/-! ## Well-formedness -/

theorem test_write_count_too_high : (Instr.write 32768).wellFormed = false := by decide
theorem test_write_count_too_low : (Instr.write (-32769)).wellFormed = false := by decide
theorem test_read_count_too_high : (Instr.read 32768).wellFormed = false := by decide
theorem test_read_count_too_low : (Instr.read (-32769)).wellFormed = false := by decide
theorem test_peek_count_too_high : (Instr.peek 32768).wellFormed = false := by decide
theorem test_peek_count_too_low : (Instr.peek (-32769)).wellFormed = false := by decide
theorem test_dbgByte_index_too_high : (Instr.dbgByte (2 ^ 28)).wellFormed = false := by decide
theorem test_bounds_are_well_formed :
    ∀ i ∈ [Instr.write (-32768), .read 32767, .peek 0, .size, .clear, .dbgByte (2 ^ 28 - 1), .dbgState],
      i.wellFormed = true := by decide

/-- R6: INIT_BYTES = 0 is no BRB core. -/
theorem test_config_init_zero : ¬ Config.Wf ⟨0, 4096, 512⟩ := by decide
theorem test_config_init_above_max : ¬ Config.Wf ⟨9, 8, 512⟩ := by decide
theorem test_config_max_too_high : ¬ Config.Wf ⟨8, 2 ^ 28 + 1, 512⟩ := by decide
theorem test_config_vw_too_low : ¬ Config.Wf ⟨8, 4096, 511⟩ := by decide
theorem test_config_vw_too_high : ¬ Config.Wf ⟨8, 4096, 32768⟩ := by decide
theorem test_config_bounds : Config.Wf ⟨1, 1, 512⟩ ∧ Config.Wf ⟨2 ^ 28, 2 ^ 28, 32767⟩ := by decide

/-! ## Decoding: words written out from R52 to R55 -/

theorem test_decode_write : decode 0b0001_000000000000_0000000000000111#32 = .ok (.write 7) := by decide
theorem test_decode_write_negative : decode 0b0001_000000000000_1111111111111101#32 = .ok (.write (-3)) := by decide
theorem test_decode_read : decode 0b0010_000000000000_0111111111111111#32 = .ok (.read 32767) := by decide
theorem test_decode_peek : decode 0b0011_000000000000_1000000000000000#32 = .ok (.peek (-32768)) := by decide
theorem test_decode_size : decode 0b0100_0000000000000000000000000000#32 = .ok .size := by decide
theorem test_decode_clear : decode 0b0101_0000000000000000000000000000#32 = .ok .clear := by decide
theorem test_decode_dbgByte : decode 0b0110_1111111111111111111111111111#32 = .ok (.dbgByte 0x0FFFFFFF) := by decide
theorem test_decode_dbgState : decode 0b0111_0000000000000000000000000000#32 = .ok .dbgState := by decide

/-- R59: `OP` 0 and 8 to 15; vector X1. -/
theorem test_decode_reserved :
    decode 0x00000000#32 = .error .reservedOpcode ∧ decode 0x80000000#32 = .error .reservedOpcode ∧
    decode 0xF1234567#32 = .error .reservedOpcode := by decide
/-- R60; vector X1. -/
theorem test_decode_nonzero_fields :
    decode 0x10010008#32 = .error .nonzeroZ12 ∧
    decode 0x40000001#32 = .error .nonzeroZ28 ∧ decode 0x5FFFFFFF#32 = .error .nonzeroZ28 ∧
    decode 0x70000100#32 = .error .nonzeroZ28 := by decide

theorem test_decodeTableWord :
    decodeTableWord 32 0x1000FFFF = some (.write (-1)) ∧ decodeTableWord 32 0x00000000 = none := by decide

/-! ## One step each -/

/-- A 1-byte core (`CAP = 8`) as the vectors' setups leave it. -/
def core8 (rc wc : Nat) (full : Bool) (store : Memory) : State :=
  { State.resetWith ⟨1, 4096, 512⟩ [] [] with rc := rc, wc := wc, full := full, store := store }

/-- The host issues one word with a value, answered at the next edge. -/
def issued (s : State) (word value : Nat) : State :=
  { s with inputs := [{ rst := false, cmdValid := true, cmdWord := BitVec.ofNat 32 word, cmdValue := value }] }

/-- A step's next state. -/
def nextOf : Host.Outcome State Fault Refusal → Option State
  | .next t => some t
  | .fault _ => none
  | .refused _ => none

/-- What the host and the debug view see after one step. -/
def seen (s : State) : Option (Response × Buffer) := (nextOf (step s)).map (fun t => (t.response, t.buffer))

/-- W4: a value wider than the field is truncated. -/
theorem test_write_truncates : seen (issued (core8 0 0 false []) 0x10000004 511) =
    some (⟨.ok, 0⟩, ⟨8, 0, 4, false, [(0, 0xF0)]⟩) := by decide +kernel
/-- G2, row 4: growth of a full buffer with `k = 3`, then one bit. -/
theorem test_write_grows : seen (issued (core8 3 3 true [(0, 0xB4)]) 0x10000001 1) =
    some (⟨.ok, 0⟩, ⟨16, 3, 12, false, [(0, 0x14), (1, 0xB0)]⟩) := by decide +kernel
/-- R1, row 1: a READ of more than `size()` is clamped. -/
theorem test_read_clamps : seen (issued (core8 0 3 false [(0, 0xA0)]) 0x20000008 0) =
    some (⟨.ok, 5⟩, ⟨8, 3, 3, false, [(0, 0xA0)]⟩) := by decide
/-- R5: a READ across the physical end. -/
theorem test_read_wraps : seen (issued (core8 5 3 false [(0, 0x66)]) 0x20000006 0) =
    some (⟨.ok, 51⟩, ⟨8, 3, 3, false, [(0, 0x66)]⟩) := by decide
/-- R9, row 1: PEEK keeps the cursors and FULL. -/
theorem test_peek_keeps_state : seen (issued (core8 0 0 true [(0, 0xC5)]) 0x30000004 0) =
    some (⟨.ok, 12⟩, ⟨8, 0, 0, true, [(0, 0xC5)]⟩) := by decide
/-- R7, row 2: the width limit. -/
theorem test_peek_too_wide : seen (issued (core8 0 0 true [(0, 0xAB)]) 0x30000201 0) =
    some (⟨.errWidth, 0⟩, ⟨8, 0, 0, true, [(0, 0xAB)]⟩) := by decide
/-- C5: SIZE of a full buffer. -/
theorem test_size_full : seen (issued (core8 0 0 true [(0, 0xAB)]) 0x40000000 0) =
    some (⟨.ok, 8⟩, ⟨8, 0, 0, true, [(0, 0xAB)]⟩) := by decide
/-- C3, row 1: CLEAR of a full buffer clears FULL only. -/
theorem test_clear_full : seen (issued (core8 1 1 true [(0, 0xFF)]) 0x50000000 0) =
    some (⟨.ok, 0⟩, ⟨8, 1, 1, false, [(0, 0xFF)]⟩) := by decide
/-- D1 with `CAP = 8`: the first byte, and the first index past the end. -/
theorem test_dbgByte_in_range : seen (issued (core8 2 2 false [(0, 0xEB)]) 0x60000000 0) =
    some (⟨.ok, 235⟩, ⟨8, 2, 2, false, [(0, 0xEB)]⟩) := by decide
theorem test_dbgByte_out_of_range : seen (issued (core8 2 2 false [(0, 0xEB)]) 0x60000001 0) =
    some (⟨.errRange, 0⟩, ⟨8, 2, 2, false, [(0, 0xEB)]⟩) := by decide
/-- D5: the packed word with `RC > WC`. -/
theorem test_dbgState_packs : seen (issued (core8 3 1 false [(0, 0xAB)]) 0x70000000 0) =
    some (⟨.ok, 0x80000000100000003⟩, ⟨8, 3, 1, false, [(0, 0xAB)]⟩) := by decide
/-- X2, row 1: ILLEGAL before WIDTH. -/
theorem test_illegal_first : seen (issued (core8 0 3 false [(0, 0xA0)]) 0x10017FFF 1) =
    some (⟨.errIllegal, 0⟩, ⟨8, 0, 3, false, [(0, 0xA0)]⟩) := by decide
/-- G4, row 2: an allocation that cannot be made leaves no trace (`MAX_BYTES = 4`). -/
theorem test_alloc_fails :
    seen (issued { core8 0 3 false [(0, 0x20)] with cfg := ⟨1, 4, 512⟩ } 0x10000021 0) =
      some (⟨.errAlloc, 0⟩, ⟨8, 0, 3, false, [(0, 0x20)]⟩) := by decide

/-- T1: the response cycle of `WRITE 3, 8` after reset, and the ports in it. -/
theorem test_response_cycle :
    (nextOf (step (issued State.reset 0x10000008 3))).map State.outputs =
      some { cmdReady := true, rspValid := true, rspStatus := 0, rspResult := 0 } := by decide
/-- T3: a reset edge in a BUSY cycle aborts the WRITE. -/
theorem test_reset_aborts :
    nextOf (step { core8 0 3 false [(0, 0xA0)] with
      phase := .busy ⟨0x10000008, 3⟩ 1, inputs := [{ PortIn.quiet with rst := true }] }) =
      some (State.resetWith ⟨1, 4096, 512⟩ [] []) := by decide
theorem test_fetch_word_runs_first :
    (nextOf (step (State.reset.withFetchWord 32 0x70000000))).map State.response =
      some ⟨.ok, 0x400000000000000000⟩ := by decide

/-! ## The assembler (R64, R65) -/

/-- R65's example `WRITE 127, 7`, with a comment and a lower-case mnemonic. -/
theorem test_assemble_line :
    parseLine ['w', 'r', 'i', 't', 'e', ' ', '1', '2', '7', ',', ' ', '7', ' ', ';', 'x'] =
      .ok (some (.write 127 7)) ∧
    (Asm.write 127 7).assemble Config.standard = .ok (0x10000007, 127) := by
  refine ⟨by decide, ?_⟩
  decide +kernel
/-- R65's example `READ -1`. -/
theorem test_assemble_negative :
    parseLine ['R', 'E', 'A', 'D', ' ', '-', '1'] = .ok (some (.read (-1))) ∧
    (Asm.read (-1)).assemble Config.standard = .ok (0x2000FFFF, 0) := by
  refine ⟨by decide, ?_⟩
  decide +kernel

/-! ## Witnesses: states and operands that meet the hypotheses of each obligation, at the bounds of its clauses -/

/-- A next state with a property that computes. -/
theorem exists_next {o : Host.Outcome State Fault Refusal} {P : State → Bool}
    (h : (nextOf o).any P = true) : ∃ t, o = .next t ∧ P t = true := by
  cases o with
  | next t => exact ⟨t, rfl, by simpa [nextOf] using h⟩
  | fault r => simp [nextOf] at h
  | refused r => simp [nextOf] at h

/-- `CAP = 8` holding three bits. -/
def partly : State := core8 0 3 false [(0, 0xA0)]
/-- `CAP = 8`, full, the read cursor inside the byte. -/
def filled : State := core8 3 3 true [(0, 0xB4)]
/-- `CAP = 8`, the occupied region crossing the end. -/
def crossing : State := core8 5 3 false [(0, 0x66)]
/-- A state in the last BUSY cycle of a command with value 1. -/
def running (s : State) (word : Word) : State := { s with phase := .busy ⟨word, 1⟩ 0 }

theorem inv_partly : partly.Inv := inv_of_checks _ 0 (by decide +kernel)
theorem inv_filled : filled.Inv := inv_of_checks _ 0 (by decide +kernel)
theorem inv_crossing : crossing.Inv := inv_of_checks _ 0 (by decide +kernel)
theorem inv_partly_running : (running partly 0x10000005).Inv := inv_of_checks _ 0 (by decide +kernel)
theorem inv_filled_running : (running filled 0x10000001).Inv := inv_of_checks _ 0 (by decide +kernel)
/-- One doubling makes room for 9 bits in place of 8. -/
theorem doubling_9 : LeastDoubling 8 9 1 := ⟨by decide, by decide, fun j h1 h2 => by omega⟩

theorem witness_ResetEdgeAbortsAnyCommand :
    let s := { partly with phase := .busy ⟨0x10000008, 3⟩ 1, inputs := [⟨true, true, 0x20000008, 0⟩] }
    s.cfg.Wf ∧ s.driven.rst = true := by decide
theorem witness_ResetMeetsInvariants : Config.Wf ⟨1, 1, 512⟩ ∧ Config.Wf ⟨2 ^ 28, 2 ^ 28, 32767⟩ := by decide
theorem witness_DecoderFollowsItsPseudocode :
    (0x1000FFFF#32).toNat / 2 ^ 28 = 1 ∧ (0x1000FFFF#32).toNat / 2 ^ 16 % 2 ^ 12 = 0 ∧
    (0x20007FFF#32).toNat / 2 ^ 28 = 2 ∧ (0x20007FFF#32).toNat / 2 ^ 16 % 2 ^ 12 = 0 ∧
    (0x30008000#32).toNat / 2 ^ 28 = 3 ∧ (0x30008000#32).toNat / 2 ^ 16 % 2 ^ 12 = 0 ∧
    (0x40000000#32).toNat / 2 ^ 28 = 4 ∧ (0x40000000#32).toNat % 2 ^ 28 = 0 ∧
    (0x50000000#32).toNat / 2 ^ 28 = 5 ∧ (0x50000000#32).toNat % 2 ^ 28 = 0 ∧
    (0x6FFFFFFF#32).toNat / 2 ^ 28 = 6 ∧
    (0x70000000#32).toNat / 2 ^ 28 = 7 ∧ (0x70000000#32).toNat % 2 ^ 28 = 0 := by decide
theorem witness_DecodeInvertsEncode :
    (Instr.write (-32768)).wellFormed = true ∧ (Instr.read 32767).wellFormed = true ∧
    (Instr.dbgByte (2 ^ 28 - 1)).wellFormed = true := by decide
theorem witness_EncodeInvertsDecode : decode 0x3000FFFF#32 = .ok (.peek (-1)) := by decide
theorem witness_AssemblerDrivesTheCommandsWord :
    ((Asm.write (2 ^ 512 - 1) 32767).instr.wellFormed = true ∧ (Asm.write (2 ^ 512 - 1) 32767).value < 2 ^ 512) ∧
    (Asm.read 32768).instr.wellFormed = false ∧ 2 ^ 512 ≤ (Asm.write (2 ^ 512) 1).value := by decide +kernel
theorem witness_StepRunsTheDecodedCommand :
    (let s := issued partly 0x20000003 0
     s.cfg.Wf ∧ s.phase = .idle ∧ s.driven.rst = false ∧ s.driven.cmdValid = true ∧ s.busyCycles.headD 0 = 0 ∧
       decode s.driven.cmdWord = .ok (.read 3)) ∧
    (let s := running partly 0x10000005
     s.cfg.Wf ∧ s.phase = .busy ⟨0x10000005, 1⟩ 0 ∧ s.driven.rst = false ∧ decode 0x10000005#32 = .ok (.write 5)) := by
  decide
theorem witness_StepRunsTheFetchWord :
    partly.cfg.Wf ∧ decodeTableWord 32 0x10000005 = some (.write 5) := by decide
theorem witness_IllegalWordsAnswerErrIllegal :
    (let s := issued partly 0x10010008 0
     s.cfg.Wf ∧ s.phase = .idle ∧ s.driven.rst = false ∧ s.driven.cmdValid = true ∧ s.busyCycles.headD 0 = 0) ∧
    IllegalWord (issued partly 0x10010008 0).driven.cmdWord ∧
    (let s := running partly 0x80000000
     s.cfg.Wf ∧ s.phase = .busy ⟨0x80000000, 1⟩ 0 ∧ s.driven.rst = false) ∧ IllegalWord 0x80000000 := by
  refine ⟨by decide, ?_, by decide, ?_⟩
  · exact .inr (.inr (.inl (by decide)))
  · exact .inr (.inl (by decide))
theorem witness_OneCommandAtATime :
    (let s := issued partly 0x20000003 0
     s.cfg.Wf ∧ s.phase = .idle ∧ s.driven.rst = false ∧ s.driven.cmdValid = true ∧ s.busyCycles.headD 0 = 0) ∧
    (let s := { issued partly 0x20000003 0 with busyCycles := [1] }
     s.cfg.Wf ∧ s.phase = .idle ∧ s.driven.rst = false ∧ s.driven.cmdValid = true ∧ s.busyCycles.headD 0 = 0 + 1) ∧
    (let s := { issued partly 0x20000003 0 with phase := .busy ⟨0x10000008, 3⟩ 1 }
     s.cfg.Wf ∧ s.phase = .busy ⟨0x10000008, 3⟩ (0 + 1) ∧ s.driven.rst = false) := by decide
theorem witness_IdleBlockHoldsItsState :
    partly.cfg.Wf ∧ partly.phase = .idle ∧ partly.driven.rst = false ∧ partly.driven.cmdValid = false := by decide
theorem witness_EnvironmentMovesOn :
    ∃ t, step { issued partly 0x20000003 0 with busyCycles := [0, 7] } = .next t ∧
      decide (t.busyCycles = [7] ∧ t.inputs = []) = true := exists_next (by decide +kernel)
theorem witness_OneResponsePulsePerCommand :
    (issued partly 0x20000003 0).driven.rst = false ∧ ∃ t, step (issued partly 0x20000003 0) = .next t ∧
      t.rspValid = true := ⟨by decide, exists_next (by decide +kernel)⟩
theorem witness_OneResponsePulsePerCommand_silent :
    partly.driven.rst = false ∧ ∃ t, step partly = .next t ∧ (!t.rspValid) = true :=
  ⟨by decide, exists_next (by decide +kernel)⟩
theorem witness_BlockNeverStops : partly.cfg.Wf := by decide
theorem witness_OtherConfigurationsAreRefused : ¬ { partly with cfg := ⟨0, 4096, 512⟩ }.cfg.Wf := by decide
theorem witness_LatencyChangesNoResponseOrState :
    let p : PortIn := ⟨false, true, 0x20000003, 0⟩
    let ps : List PortIn := [⟨false, true, 0x50000000, 0⟩, PortIn.quiet]
    let s := { partly with inputs := [p, ⟨false, true, 0x50000000, 0⟩, PortIn.quiet], busyCycles := [2, 5] }
    s.cfg.Wf ∧ s.phase = .idle ∧ p.cmdValid = true ∧ noReset (p :: ps) = true ∧ s.inputs = p :: ps ++ [] ∧
      s.busyCycles = ps.length :: [5] := by decide
theorem witness_ProgramsThroughThePortsRunAsWritten :
    let cs : List (Command × Nat) := [(⟨0x10000005, 17⟩, 2), (⟨0x20000008, 0⟩, 0)]
    let s := { partly with inputs := issueAll cs ++ [PortIn.quiet], busyCycles := [2, 0, 9] }
    s.cfg.Wf ∧ s.phase = .idle ∧ (∀ c ∈ cs, c.1.value < 2 ^ s.cfg.vw) ∧
      s.inputs = issueAll cs ++ [PortIn.quiet] ∧ s.busyCycles = cs.map (fun c => c.2) ++ [9] := by decide +kernel
theorem witness_SizeAnswersOccupiedBits :
    ((core8 0 0 false []).full = false ∧ (core8 0 0 false []).rc = (core8 0 0 false []).wc) ∧ filled.full = true ∧
    (crossing.full = false ∧ crossing.wc < crossing.rc ∧ crossing.rc < crossing.cap) := by decide
theorem witness_SizeIsCapacityExactlyWhenFull : filled.Inv ∧ partly.Inv := ⟨inv_filled, inv_partly⟩
theorem witness_CountsAboveTheBusRaiseErrWidth :
    (partly.cfg.vw : Int) < 513 ∧ (Instr.read 513) ∈ [Instr.write 513, Instr.read 513, Instr.peek 513] ∧
    (0 : Int) ≤ 0 ∧ (Instr.write 0) ∈ [Instr.write 0, Instr.read 0, Instr.peek 0] ∧
    ∃ t, exec (.write 0) partly = .next t ∧ true = true := by
  refine ⟨by decide, by decide, by decide, by decide, exists_next (P := fun _ => true) (by decide +kernel)⟩
theorem witness_CountsUpToZeroAreNoOps :
    (0 : Int) ≤ 0 ∧ (-32768 : Int) ≤ 0 ∧
    (Instr.read (-32768)) ∈ [Instr.write (-32768), Instr.read (-32768), Instr.peek (-32768)] := by decide
theorem witness_OnlyWriteReadsTheValueOperand :
    (∀ bits, Instr.read 3 ≠ .write bits) ∧
    ∃ bits : Int, Instr.write 4 = .write bits ∧ 0x1F % 2 ^ bits.toNat = 0xF % 2 ^ bits.toNat :=
  ⟨fun _ h => (by cases h), 4, rfl, by decide⟩
theorem witness_ReadReturnsTheOldestBits :
    CountFits (-32768) ∧ CountFits 32767 ∧ (partly.cfg.vw : Int) < 513 ∧ (0 : Int) ≤ 0 ∧
    (0 < 1 ∧ 1 ≤ partly.cfg.vw) ∧ (0 < 512 ∧ 512 ≤ partly.cfg.vw) := by decide
theorem witness_ReadRemovesWhatItReturns :
    crossing.Inv ∧ 0 < 512 ∧ 512 ≤ crossing.cfg.vw ∧ ∃ t, exec (.read (512 : Nat)) crossing = .next t ∧
      decide (t.rspResult = 51) = true :=
  ⟨inv_crossing, by decide, by decide, exists_next (by decide +kernel)⟩
theorem witness_PeekReturnsTheOldestBits :
    CountFits (-32768) ∧ CountFits 32767 ∧ (partly.cfg.vw : Int) < 513 ∧ (0 : Int) ≤ 0 ∧
    (0 < 1 ∧ 1 ≤ partly.cfg.vw) ∧ (0 < 512 ∧ 512 ≤ partly.cfg.vw) := by decide
theorem witness_PeekForetellsRead :
    ∃ t, exec (.peek 4) crossing = .next t ∧ decide (t.rspResult = 12) = true := exists_next (by decide +kernel)
theorem witness_BytewiseReadIsTheField : 0 < 16 ∧ 16 % 8 = 0 ∧ 15 < 16 ∧ 16 ≤ 16 := by decide
theorem witness_WriteThatFitsStoresItsField :
    (running partly 0x10000005).Inv ∧ 0 < 5 ∧ 5 ≤ (running partly 0x10000005).cfg.vw ∧
      5 + (running partly 0x10000005).size ≤ (running partly 0x10000005).cap :=
  ⟨inv_partly_running, by decide⟩
theorem witness_WriteThatGrowsRelocatesAndStores :
    let s := running filled 0x10000001
    s.Inv ∧ 0 < 1 ∧ 1 ≤ s.cfg.vw ∧ s.cap < 1 + s.size ∧ LeastDoubling s.cap (1 + s.size) 1 ∧
      s.cap * 2 ^ 1 / 8 ≤ s.cfg.maxBytes :=
  ⟨inv_filled_running, by decide, by decide, by decide, doubling_9, by decide⟩
theorem witness_WriteBeyondMaxBytesRaisesErrAlloc :
    let s := { running filled 0x10000001 with cfg := ⟨1, 1, 512⟩ }
    0 < s.cap ∧ 0 < 1 ∧ 1 ≤ s.cfg.vw ∧ s.cap < 1 + s.size ∧ LeastDoubling s.cap (1 + s.size) 1 ∧
      s.cfg.maxBytes < s.cap * 2 ^ 1 / 8 :=
  ⟨by decide, by decide, by decide, by decide, doubling_9, by decide⟩
theorem witness_WriteAppendsToTheStream :
    (running filled 0x10000001).Inv ∧ 0 < 1 ∧ 1 ≤ (running filled 0x10000001).cfg.vw ∧
      ∃ t, exec (.write (1 : Nat)) (running filled 0x10000001) = .next t ∧ decide (t.rspStatus = .ok) = true :=
  ⟨inv_filled_running, by decide, by decide, exists_next (by decide +kernel)⟩
theorem witness_WriteSetsFullExactlyWhenFilled :
    (running partly 0x10000005).Inv ∧ 0 < 5 ∧ 5 ≤ (running partly 0x10000005).cfg.vw ∧
      ∃ t, exec (.write (5 : Nat)) (running partly 0x10000005) = .next t ∧
        decide (t.rspStatus = .ok ∧ t.full = true) = true :=
  ⟨inv_partly_running, by decide, by decide, exists_next (by decide +kernel)⟩
theorem witness_BytewiseWriteIsTheFieldWrite :
    Memory.wf [(0, 0xA5), (1, 0xC3)] = true ∧ 0 < 16 ∧ 16 % 8 = 0 ∧ 15 < 16 ∧ 0 < 16 ∧ 16 ≤ 16 ∧
      65535 < 2 ^ 16 := by decide
theorem witness_GrowthTargetIsTheLeastDoubling : 0 < filled.cap ∧ filled.cap < 1 + filled.size := by decide
theorem witness_GrowthPreservesOccupiedBits : filled.Inv ∧ 2 * filled.cap ≤ 16 := ⟨inv_filled, by decide⟩
theorem witness_GrowthZeroesEverythingElse : crossing.Inv ∧ 2 * crossing.cap ≤ 16 := ⟨inv_crossing, by decide⟩
theorem witness_StepwiseDoublingIsOneGrowth : filled.Inv ∧ 1 ≤ 1 ∧ 1 ≤ 3 := ⟨inv_filled, by decide⟩
/-- The three exits: the field write without growth, the failed allocation, the grown state. -/
theorem witness_ReferenceFsmRefinesGrowth :
    (partly.Inv ∧ 0 < 5 ∧ 5 ≤ partly.cfg.vw ∧ 5 + partly.size ≤ partly.cap) ∧
    (partly.Inv ∧ 0 < 6 ∧ 6 ≤ partly.cfg.vw ∧ ¬ 6 + partly.size ≤ partly.cap ∧
      ¬ partly.cfg.maxBytes < partly.targetCap 6 / 8) ∧
    (State.Inv { partly with cfg := ⟨1, 1, 512⟩ } ∧ 0 < 6 ∧ ¬ 6 + partly.size ≤ partly.cap ∧
      1 < partly.targetCap 6 / 8) :=
  ⟨⟨inv_partly, by decide⟩, ⟨inv_partly, by decide⟩, inv_of_checks _ 0 (by decide +kernel), by decide⟩
theorem witness_DbgByteAnswersTheRawByte :
    0 < 2 ^ 28 ∧ 2 ^ 28 - 1 < 2 ^ 28 ∧ 0 < partly.cap / 8 ∧ partly.cap / 8 ≤ 1 := by decide
theorem witness_DbgStatePacksTheRegisters : crossing.Inv := inv_crossing
theorem witness_DebugRowsShowEveryStreamBit : partly.cap % 8 = 0 ∧ 7 < partly.cap := by decide
theorem witness_ErrorsChangeNothing :
    ∃ t, partly.finish ⟨0x10000201, 1⟩ = .next t ∧ decide (t.rspStatus ≠ .ok) = true := exists_next (by decide +kernel)
theorem witness_StatusCodesAndTheirSources :
    (∃ t, partly.finish ⟨0x10010008, 1⟩ = .next t ∧ decide (t.rspStatus = .errIllegal) = true) ∧
    (∃ t, partly.finish ⟨0x30000201, 1⟩ = .next t ∧ decide (t.rspStatus = .errWidth) = true) ∧
    (∃ t, partly.finish ⟨0x60000001, 1⟩ = .next t ∧ decide (t.rspStatus = .errRange) = true) ∧
    (∃ t, State.finish { partly with cfg := ⟨1, 1, 512⟩ } ⟨0x10000006, 1⟩ = .next t ∧
      decide (t.rspStatus = .errAlloc) = true) :=
  ⟨exists_next (by decide +kernel), exists_next (by decide +kernel), exists_next (by decide +kernel),
    exists_next (by decide +kernel)⟩
theorem witness_ConditionsThatAreNoErrors :
    (0 : Int) ≤ 0 ∧ 512 ≤ partly.cfg.vw ∧ (0 < partly.cap ∧ 5 ≤ partly.cfg.vw ∧ 5 + partly.size ≤ partly.cap) ∧
    (0 < partly.cap ∧ 6 ≤ partly.cfg.vw ∧ LeastDoubling partly.cap (6 + partly.size) 1 ∧
      partly.cap * 2 ^ 1 / 8 ≤ partly.cfg.maxBytes) ∧
    Instr.dbgState ∈ [Instr.clear, Instr.size, Instr.dbgState] :=
  ⟨by decide, by decide, by decide, ⟨by decide, by decide, doubling_9, by decide⟩, by decide⟩
theorem witness_StepKeepsInvariants :
    (running filled 0x10000001).Inv ∧ ∃ t, step (running filled 0x10000001) = .next t ∧
      decide (t.cap = 16) = true := ⟨inv_filled_running, exists_next (by decide +kernel)⟩
theorem witness_CapacityOnlyDoubles :
    (running filled 0x10000001).Inv ∧ (running filled 0x10000001).driven.rst = false ∧
      ∃ t, step (running filled 0x10000001) = .next t ∧ decide (t.cap = 16) = true :=
  ⟨inv_filled_running, by decide, exists_next (by decide +kernel)⟩
theorem witness_OnlyTheseCommandsWriteFull :
    (∃ t, exec (.write 5) (running partly 0x10000005) = .next t ∧
      decide (t.rspStatus = .ok ∧ t.full = true) = true) ∧
    (∃ t, exec (.read 1) filled = .next t ∧ decide (t.rspStatus = .ok ∧ t.full = false) = true) ∧
    (∃ t, exec .clear filled = .next t ∧ decide (t.full = false) = true) ∧
    (∃ t, exec (.read 0) filled = .next t ∧ decide (t.full = true) = true) ∧
    (∃ t, exec (.write 513) filled = .next t ∧ decide (t.rspStatus ≠ .ok ∧ t.full = true) = true) :=
  ⟨exists_next (by decide +kernel), exists_next (by decide +kernel), exists_next (by decide +kernel),
    exists_next (by decide +kernel), exists_next (by decide +kernel)⟩
theorem witness_OnlyWriteTouchesStorage :
    ∃ t, exec (.write 1) (running filled 0x10000001) = .next t ∧
      decide (t.store ≠ (running filled 0x10000001).store) = true := exists_next (by decide +kernel)
theorem witness_InspectionIsIdempotent :
    (∃ t, exec (.peek 3) partly = .next t ∧ decide (t.rspResult = 5) = true) ∧
    (∃ t, exec (.dbgByte 1) partly = .next t ∧ decide (t.rspStatus = .errRange) = true) :=
  ⟨exists_next (by decide +kernel), exists_next (by decide +kernel)⟩
/-- Two states that differ in an unoccupied bit only. -/
theorem witness_UnoccupiedBitsAreInvisible :
    partly.Inv ∧ (core8 0 3 false [(0, 0xA1)]).Inv ∧ SameStream partly (core8 0 3 false [(0, 0xA1)]) ∧
      inContract (.write 6) = true :=
  ⟨inv_partly, inv_of_checks _ 0 (by decide +kernel), ⟨rfl, by decide⟩, rfl⟩
theorem witness_WritesComeBackInOrder :
    let s := core8 0 0 false []
    let ws : List (Nat × Nat) := [(5, 3), (0, 0), (0x3FF, 10)]
    s.Inv ∧ s.size = 0 ∧ (∀ w ∈ ws, w.1 < 2 ^ w.2 ∧ w.2 ≤ s.cfg.vw) ∧
      (s.runProgram (ws.map writeCommand)).any (fun r => r.1.all (fun x => x.status = .ok)) = true :=
  ⟨inv_of_checks _ 0 (by decide +kernel), by decide, by decide, by decide +kernel⟩

end Sys2Proof.Tests
end

/-! Proofs of the family "state": reset, SIZE and the writers of FULL. -/

namespace Sys2Proof.Proofs

open Sys2Proof.Machine
open Sys2Proof.Laws

/-! ## Reset (R30) -/

/-- Settles O1: R30 register by register; STORE lists no byte after reset, so every byte reads blank. -/
theorem resetLeavesEmptyBuffer : Obligations.ResetLeavesEmptyBuffer := by
  unfold Obligations.ResetLeavesEmptyBuffer
  intro cfg inputs busyCycles
  exact ⟨resetWith_cap .., resetWith_rc .., resetWith_wc .., resetWith_full .., read_nil, resetWith_phase ..,
    congrArg Status.code (resetWith_rspStatus ..), resetWith_rspResult .., resetWith_rspValid ..⟩

/-! ## The occupied size (R22) -/

theorem size_of_full {s : State} (hf : s.full = true) : s.size = s.cap := by
  simp [State.size, hf]

theorem size_of_not_full {s : State} (hf : s.full = false) : s.size = (s.cap + s.wc - s.rc) % s.cap := by
  simp [State.size, hf]

theorem size_of_empty {s : State} (hf : s.full = false) (hc : s.rc = s.wc) : s.size = 0 := by
  rw [size_of_not_full hf, hc, Nat.add_sub_cancel, Nat.mod_self]

/-- With WC before RC the difference is below CAP, and `mod CAP` leaves it. -/
theorem size_of_crossing {s : State} (hf : s.full = false) (hw : s.wc < s.rc) (hr : s.rc < s.cap) :
    s.size = s.cap + s.wc - s.rc := by
  rw [size_of_not_full hf, Nat.mod_eq_of_lt (by omega)]

/-- Settles O20: the response is `exec_size`, and R67's corner cases are the lemmas about `size()` above. -/
theorem sizeAnswersOccupiedBits : Obligations.SizeAnswersOccupiedBits := by
  unfold Obligations.SizeAnswersOccupiedBits
  exact ⟨by decide, fun s => ⟨exec_size s, size_of_empty, size_of_full, size_of_crossing⟩⟩

/-! ## The writers of FULL (R19) -/

/-- The inversion of `exec`: a next state is a response to one of the effects, to none if it is an error (R99). -/
theorem effect_of_exec {i : Instr} {s t : State} (h : exec i s = .next t) :
    ∃ b st r, Effect i s b ∧ t = b.respond st r ∧ (st ≠ .ok → b = s) := by
  obtain ⟨b, st, r, heff, hexec, herr⟩ := exec_effect i s
  cases hexec.symm.trans h
  exact ⟨b, st, r, heff, rfl, fun hst => (herr hst).1⟩

/-- R84: the field write sets FULL to whether the cursors meet. -/
theorem append_full_iff (s : State) (n v : Nat) :
    (s.append n v).full = true ↔ (s.append n v).wc = (s.append n v).rc := by
  simp

/-- R19(a): with or without growth, the last thing a completed WRITE does is a field write. -/
theorem full_iff_of_write_ok {s t : State} {bits : Int} (h : execWrite bits s = .next t) (hpos : 0 < bits)
    (hok : t.rspStatus = .ok) : t.full = true ↔ t.wc = t.rc := by
  rcases execWrite_cases bits s with ⟨_, he⟩ | ⟨hneg, _⟩ | ⟨n, _, _, _, ⟨_, he⟩ | ⟨_, _, he⟩ | ⟨_, _, he⟩⟩
  · cases he.symm.trans h
    simp at hok
  · omega
  · cases he.symm.trans h
    exact append_full_iff s n s.operand
  · cases he.symm.trans h
    simp at hok
  · cases he.symm.trans h
    exact append_full_iff (s.growTo (s.targetCap n)) n s.operand

/-- R19(b): a completed READ of a positive count clears FULL, also when it moved no bit (R87). -/
theorem full_of_read_ok {s t : State} {bits : Int} (h : execRead bits s = .next t) (hpos : 0 < bits)
    (hok : t.rspStatus = .ok) : t.full = false := by
  rcases execRead_cases bits s with ⟨_, he⟩ | ⟨hneg, _⟩ | ⟨n, _, _, _, he⟩
  · cases he.symm.trans h
    simp at hok
  · omega
  · cases he.symm.trans h
    exact advance_full s n

/-- R19(c), R68. -/
theorem full_of_clear {s t : State} (h : exec .clear s = .next t) : t.full = false := by
  cases (exec_clear s).symm.trans h
  exact cleared_full s

/-- A command that is neither CLEAR nor a positive count of WRITE or READ has no effect that touches FULL. -/
theorem full_of_not_writer {i : Instr} {s t : State} (h : exec i s = .next t)
    (hcount : ∀ bits : Int, 0 < bits → i ≠ .write bits ∧ i ≠ .read bits) (hclear : i ≠ .clear) :
    t.full = s.full := by
  obtain ⟨b, st, r, heff, rfl, _⟩ := effect_of_exec h
  cases heff with
  | unchanged => rfl
  | advanced n hi h0 => exact absurd hi (hcount n (by omega)).2
  | cleared hi => exact absurd hi hclear
  | appended n hi h0 => exact absurd hi (hcount n (by omega)).1
  | grown n hi h0 => exact absurd hi (hcount n (by omega)).1

/-- An error keeps no state change of its command (R99). -/
theorem full_of_error {i : Instr} {s t : State} (h : exec i s = .next t) (herr : t.rspStatus ≠ .ok) :
    t.full = s.full := by
  obtain ⟨b, st, r, _, rfl, hkeep⟩ := effect_of_exec h
  rw [respond_full, hkeep herr]

/-- Settles O51: one lemma per writer of R19, and two for what leaves FULL alone. -/
theorem onlyTheseCommandsWriteFull : Obligations.OnlyTheseCommandsWriteFull := by
  unfold Obligations.OnlyTheseCommandsWriteFull
  refine ⟨fun s t i h => ⟨?write, ?read, ?clear, ?others⟩, growTo_full⟩
  case write =>
    rintro bits rfl
    exact full_iff_of_write_ok h
  case read =>
    rintro bits rfl
    exact full_of_read_ok h
  case clear =>
    rintro rfl
    exact full_of_clear h
  case others =>
    rintro (⟨hcount, hclear⟩ | herr)
    · exact full_of_not_writer h hcount hclear
    · exact full_of_error h herr

end Sys2Proof.Proofs

/-! Proofs of the family "encoding": the decoder (R63) and DBG_BYTE (R90). -/

namespace Sys2Proof.Proofs

open Sys2Proof.Machine
open Sys2Proof.Laws

/-! ## The two formats with a must-be-zero field (R52, R53, R60) -/

theorem decodeCount_of_zero (command : Int → Instr) {w : Word} (h : w.toNat / 2 ^ 16 % 2 ^ 12 = 0) :
    decodeCount command w = .ok (command (countOf w)) := by
  rw [decodeCount, if_pos ((z12Field_eq_zero w).mpr h), sext16_bitsField]

theorem decodeCount_of_ne_zero (command : Int → Instr) {w : Word} (h : w.toNat / 2 ^ 16 % 2 ^ 12 ≠ 0) :
    decodeCount command w = .error .nonzeroZ12 := by
  rw [decodeCount, if_neg (mt (z12Field_eq_zero w).mp h)]

theorem decodePlain_of_zero (command : Instr) {w : Word} (h : w.toNat % 2 ^ 28 = 0) :
    decodePlain command w = .ok command := by
  rw [decodePlain, if_pos ((low28Field_eq_zero w).mpr h)]

theorem decodePlain_of_ne_zero (command : Instr) {w : Word} (h : w.toNat % 2 ^ 28 ≠ 0) :
    decodePlain command w = .error .nonzeroZ28 := by
  rw [decodePlain, if_neg (mt (low28Field_eq_zero w).mp h)]

/-- A format C word is refused exactly for its `Z12`, whatever its command. -/
theorem decodeCount_error_iff (command : Int → Instr) (w : Word) :
    (∃ e, decodeCount command w = .error e) ↔ w.toNat / 2 ^ 16 % 2 ^ 12 ≠ 0 := by
  by_cases h : w.toNat / 2 ^ 16 % 2 ^ 12 = 0
  · exact iff_of_false (by simp [decodeCount_of_zero command h]) (not_not_intro h)
  · exact iff_of_true ⟨_, decodeCount_of_ne_zero command h⟩ h

/-- A format N word is refused exactly for its `Z28`, whatever its command. -/
theorem decodePlain_error_iff (command : Instr) (w : Word) :
    (∃ e, decodePlain command w = .error e) ↔ w.toNat % 2 ^ 28 ≠ 0 := by
  by_cases h : w.toNat % 2 ^ 28 = 0
  · exact iff_of_false (by simp [decodePlain_of_zero command h]) (not_not_intro h)
  · exact iff_of_true ⟨_, decodePlain_of_ne_zero command h⟩ h

/-! ## The decoder, one equation per opcode (R55, R59, R63) -/

section opcode

variable {w : Word}

theorem decode_of_op_1 (h : w.toNat / 2 ^ 28 = 1) : decode w = decodeCount .write w := by
  simp only [decode, opField_toNat, h]

theorem decode_of_op_2 (h : w.toNat / 2 ^ 28 = 2) : decode w = decodeCount .read w := by
  simp only [decode, opField_toNat, h]

theorem decode_of_op_3 (h : w.toNat / 2 ^ 28 = 3) : decode w = decodeCount .peek w := by
  simp only [decode, opField_toNat, h]

theorem decode_of_op_4 (h : w.toNat / 2 ^ 28 = 4) : decode w = decodePlain .size w := by
  simp only [decode, opField_toNat, h]

theorem decode_of_op_5 (h : w.toNat / 2 ^ 28 = 5) : decode w = decodePlain .clear w := by
  simp only [decode, opField_toNat, h]

theorem decode_of_op_6 (h : w.toNat / 2 ^ 28 = 6) : decode w = .ok (.dbgByte (w.toNat % 2 ^ 28)) := by
  simp only [decode, opField_toNat, low28Field_toNat, h]

theorem decode_of_op_7 (h : w.toNat / 2 ^ 28 = 7) : decode w = decodePlain .dbgState w := by
  simp only [decode, opField_toNat, h]

/-- Each of the seven opcodes the decoder matches is neither 0 nor above 7. -/
theorem decode_of_reserved (h : w.toNat / 2 ^ 28 = 0 ∨ 8 ≤ w.toNat / 2 ^ 28) :
    decode w = .error .reservedOpcode := by
  rw [← opField_toNat] at h
  unfold decode
  split
  case h_8 => rfl
  all_goals omega

end opcode

/-! ## The ILLEGAL words, one lemma per format (R59, R60, R95) -/

section illegal

variable {w : Word}

theorem illegalWord_of_formatC (h : w.toNat / 2 ^ 28 = 1 ∨ w.toNat / 2 ^ 28 = 2 ∨ w.toNat / 2 ^ 28 = 3) :
    IllegalWord w ↔ w.toNat / 2 ^ 16 % 2 ^ 12 ≠ 0 := by
  simp only [IllegalWord]
  omega

theorem decode_error_of_formatC (h : w.toNat / 2 ^ 28 = 1 ∨ w.toNat / 2 ^ 28 = 2 ∨ w.toNat / 2 ^ 28 = 3) :
    (∃ e, decode w = .error e) ↔ w.toNat / 2 ^ 16 % 2 ^ 12 ≠ 0 := by
  rcases h with hop | hop | hop
  · rw [decode_of_op_1 hop, decodeCount_error_iff]
  · rw [decode_of_op_2 hop, decodeCount_error_iff]
  · rw [decode_of_op_3 hop, decodeCount_error_iff]

theorem illegalWord_of_formatN (h : w.toNat / 2 ^ 28 = 4 ∨ w.toNat / 2 ^ 28 = 5 ∨ w.toNat / 2 ^ 28 = 7) :
    IllegalWord w ↔ w.toNat % 2 ^ 28 ≠ 0 := by
  simp only [IllegalWord]
  omega

theorem decode_error_of_formatN (h : w.toNat / 2 ^ 28 = 4 ∨ w.toNat / 2 ^ 28 = 5 ∨ w.toNat / 2 ^ 28 = 7) :
    (∃ e, decode w = .error e) ↔ w.toNat % 2 ^ 28 ≠ 0 := by
  rcases h with hop | hop | hop
  · rw [decode_of_op_4 hop, decodePlain_error_iff]
  · rw [decode_of_op_5 hop, decodePlain_error_iff]
  · rw [decode_of_op_7 hop, decodePlain_error_iff]

theorem not_illegalWord_of_formatX (h : w.toNat / 2 ^ 28 = 6) : ¬ IllegalWord w := by
  simp only [IllegalWord]
  omega

theorem illegalWord_of_reserved (h : w.toNat / 2 ^ 28 = 0 ∨ 8 ≤ w.toNat / 2 ^ 28) : IllegalWord w :=
  h.elim .inl fun h8 => .inr (.inl h8)

end illegal

/-- The opcodes of R63: those of the formats C, N and X, and the reserved rest. -/
theorem opcode_cases (op : Nat) :
    (op = 1 ∨ op = 2 ∨ op = 3) ∨ (op = 4 ∨ op = 5 ∨ op = 7) ∨ op = 6 ∨ (op = 0 ∨ 8 ≤ op) := by
  omega

/-- R59, R60: the reserved opcodes and the nonzero must-be-zero fields are all the decoder refuses. -/
theorem illegalWord_iff_decode_error (w : Word) : IllegalWord w ↔ ∃ e, decode w = .error e := by
  rcases opcode_cases (w.toNat / 2 ^ 28) with hC | hN | hX | hR
  · exact (illegalWord_of_formatC hC).trans (decode_error_of_formatC hC).symm
  · exact (illegalWord_of_formatN hN).trans (decode_error_of_formatN hN).symm
  · exact iff_of_false (not_illegalWord_of_formatX hX) (by simp [decode_of_op_6 hX])
  · exact iff_of_true (illegalWord_of_reserved hR) ⟨_, decode_of_reserved hR⟩

/-- Settles O4: each clause is the equation of its opcode, with the must-be-zero field of its format. -/
theorem decoderFollowsItsPseudocode : Obligations.DecoderFollowsItsPseudocode := by
  unfold Obligations.DecoderFollowsItsPseudocode
  intro w
  exact ⟨fun hop hz => (decode_of_op_1 hop).trans (decodeCount_of_zero _ hz),
    fun hop hz => (decode_of_op_2 hop).trans (decodeCount_of_zero _ hz),
    fun hop hz => (decode_of_op_3 hop).trans (decodeCount_of_zero _ hz),
    fun hop hz => (decode_of_op_4 hop).trans (decodePlain_of_zero _ hz),
    fun hop hz => (decode_of_op_5 hop).trans (decodePlain_of_zero _ hz),
    decode_of_op_6,
    fun hop hz => (decode_of_op_7 hop).trans (decodePlain_of_zero _ hz),
    illegalWord_iff_decode_error w⟩

/-! ## DBG_BYTE (R57, R90, R98) -/

/-- R57: an index the INDEX field can hold comes back from the word that carries it. -/
theorem decode_dbgByte_word {index : Nat} (h : index < 2 ^ 28) :
    decode (BitVec.ofNat 32 (0x60000000 + index)) = .ok (.dbgByte index) := by
  have hnum : (BitVec.ofNat 32 (0x60000000 + index)).toNat = 6 * 2 ^ 28 + index := by
    rw [BitVec.toNat_ofNat]
    omega
  have hop : (BitVec.ofNat 32 (0x60000000 + index)).toNat / 2 ^ 28 = 6 := by omega
  have hindex : (BitVec.ofNat 32 (0x60000000 + index)).toNat % 2 ^ 28 = index := by omega
  rw [decode_of_op_6 hop, hindex]

theorem execDbgByte_in_range {s : State} {index : Nat} (h : index < s.cap / 8) :
    execDbgByte index s = .next (s.respond .ok (s.store.read index).toNat) := by
  rcases execDbgByte_cases index s with ⟨hout, _⟩ | ⟨_, he⟩
  · omega
  · exact he

theorem execDbgByte_out_of_range {s : State} {index : Nat} (h : s.cap / 8 ≤ index) :
    execDbgByte index s = .next (s.respond .errRange 0) := by
  rcases execDbgByte_cases index s with ⟨_, he⟩ | ⟨hin, _⟩
  · exact he
  · omega

/-- Settles O43: either answer is a response, which leaves every field it does not name alone. -/
theorem dbgByteAnswersTheRawByte : Obligations.DbgByteAnswersTheRawByte := by
  unfold Obligations.DbgByteAnswersTheRawByte
  exact ⟨fun _ => decode_dbgByte_word, fun _ _ => ⟨execDbgByte_in_range, execDbgByte_out_of_range⟩⟩

end Sys2Proof.Proofs

/-! Proofs of the family "growth": the target capacity (R71) and the refused allocation (R72, R97). -/

namespace Sys2Proof.Proofs

open Sys2Proof.Machine
open Sys2Proof.Laws

/-! ## The target capacity (R71) -/

/-- From a positive capacity, as many doublings as bits are needed always make room. -/
theorem le_mul_two_pow_self {cap : Nat} (hc : 0 < cap) (need : Nat) : need ≤ cap * 2 ^ need :=
  calc need ≤ 2 ^ need := Nat.lt_two_pow_self.le
    _ ≤ cap * 2 ^ need := Nat.le_mul_of_pos_left _ hc

/-- Settles O38: the bound of the doubling loop is large enough, so the loop stops at the least doubling. -/
theorem growthTargetIsTheLeastDoubling : Obligations.GrowthTargetIsTheLeastDoubling := by
  unfold Obligations.GrowthTargetIsTheLeastDoubling
  intro s n hc hg
  exact doubleUntil_least (le_mul_two_pow_self hc (n + s.size)) (Nat.zero_lt_of_lt hg)

/-! ## The refused allocation (R72, R97) -/

/-- Of the ways a WRITE can end, growth past MAX_BYTES leaves only the failed allocation. -/
theorem execWrite_beyond_maxBytes {s : State} {n : Nat} (h0 : 0 < n) (hv : n ≤ s.cfg.vw)
    (hg : s.cap < n + s.size) (ha : s.cfg.maxBytes < s.targetCap n / 8) :
    execWrite n s = .next (s.respond .errAlloc 0) := by
  rcases execWrite_cases n s with
    ⟨hwide, _⟩ | ⟨hneg, _⟩ | ⟨k, hk, _, _, ⟨hfit, _⟩ | ⟨_, _, he⟩ | ⟨_, hroom, _⟩⟩
  · omega
  · omega
  · omega
  · exact he
  · obtain rfl : n = k := by exact_mod_cast hk
    omega

/-- Settles O34: the least doubling is the target, the allocation of the target fails, and an error is a response that
leaves every register it does not name alone (R99). -/
theorem writeBeyondMaxBytesRaisesErrAlloc : Obligations.WriteBeyondMaxBytesRaisesErrAlloc := by
  unfold Obligations.WriteBeyondMaxBytesRaisesErrAlloc
  intro s n m hc h0 hv hg hm hmax
  have htarget : s.targetCap n = s.cap * 2 ^ m := targetCap_eq hc hm h0
  have halloc : s.cfg.maxBytes < s.targetCap n / 8 := by rwa [htarget]
  exact execWrite_beyond_maxBytes h0 hv hg halloc

end Sys2Proof.Proofs

/-! Proofs of the family "read": READ (R87) and PEEK (R88). -/

namespace Sys2Proof.Proofs

open Sys2Proof.Machine
open Sys2Proof.Laws

/-! ## The words of the count commands (R52, R55, R56) -/

section countWords

variable {w : Word} {op : Nat} {bits : Int}

theorem opcode_of_count_word (hw : w.toNat = op * 2 ^ 28 + (bits % 2 ^ 16).toNat) : w.toNat / 2 ^ 28 = op := by
  omega

/-- R11: a count that 16 bits hold is the sign extension of its residue modulo `2^16`. -/
theorem countOf_count_word (hfits : CountFits bits) (hw : w.toNat = op * 2 ^ 28 + (bits % 2 ^ 16).toNat) :
    countOf w = bits := by
  obtain ⟨hlow, hhigh⟩ := hfits
  unfold countOf
  split_ifs with hneg <;> omega

/-- R56: a format C word gives its command the count it carries. -/
theorem decodeCount_count_word (command : Int → Instr) (hfits : CountFits bits)
    (hw : w.toNat = op * 2 ^ 28 + (bits % 2 ^ 16).toNat) : decodeCount command w = .ok (command bits) := by
  have hz12 : w.toNat / 2 ^ 16 % 2 ^ 12 = 0 := by omega
  rw [decodeCount_of_zero command hz12, countOf_count_word hfits hw]

end countWords

/-- R65: the sum an assembler writes for an opcode and a count does not wrap in 32 bits. -/
theorem toNat_count_word {op : Nat} (hop : op < 16) (bits : Int) :
    (BitVec.ofNat 32 (op * 2 ^ 28 + (bits % 2 ^ 16).toNat)).toNat = op * 2 ^ 28 + (bits % 2 ^ 16).toNat := by
  rw [BitVec.toNat_ofNat]
  omega

theorem decode_read_word {bits : Int} (h : CountFits bits) :
    decode (BitVec.ofNat 32 (0x20000000 + (bits % 2 ^ 16).toNat)) = .ok (.read bits) := by
  have hw := toNat_count_word (op := 2) (by decide) bits
  exact (decode_of_op_2 (opcode_of_count_word hw)).trans (decodeCount_count_word .read h hw)

theorem decode_peek_word {bits : Int} (h : CountFits bits) :
    decode (BitVec.ofNat 32 (0x30000000 + (bits % 2 ^ 16).toNat)) = .ok (.peek bits) := by
  have hw := toNat_count_word (op := 3) (by decide) bits
  exact (decode_of_op_3 (opcode_of_count_word hw)).trans (decodeCount_count_word .peek h hw)

/-! ## The three ranges of a count (R96, R87, R88)

READ and PEEK share their checks, so the choice among the three cases of their inversion lemmas is made once. -/

section ranges

variable {vw : Nat} {wide noop : Prop} {moved : Nat → Prop} {bits : Int}

theorem wide_of_tooWide (hw : (vw : Int) < bits)
    (hcases : ((vw : Int) < bits ∧ wide) ∨ (bits ≤ 0 ∧ noop) ∨ ∃ n : Nat, bits = n ∧ 0 < n ∧ n ≤ vw ∧ moved n) :
    wide := by
  rcases hcases with ⟨_, hwide⟩ | ⟨hneg, _⟩ | ⟨n, _, _, hv, _⟩
  · exact hwide
  · omega
  · omega

theorem noop_of_nonpos (hneg : bits ≤ 0)
    (hcases : ((vw : Int) < bits ∧ wide) ∨ (bits ≤ 0 ∧ noop) ∨ ∃ n : Nat, bits = n ∧ 0 < n ∧ n ≤ vw ∧ moved n) :
    noop := by
  rcases hcases with ⟨hw, _⟩ | ⟨_, hnoop⟩ | ⟨n, _, h0, _, _⟩
  · omega
  · exact hnoop
  · omega

theorem moved_of_pos {n : Nat} (h0 : 0 < n) (hv : n ≤ vw)
    (hcases : ((vw : Int) < n ∧ wide) ∨ ((n : Int) ≤ 0 ∧ noop) ∨
      ∃ k : Nat, (n : Int) = k ∧ 0 < k ∧ k ≤ vw ∧ moved k) :
    moved n := by
  rcases hcases with ⟨hw, _⟩ | ⟨hneg, _⟩ | ⟨k, hk, _, _, hmoved⟩
  · omega
  · omega
  · rwa [Int.ofNat_inj.mp hk]

end ranges

/-! ## READ, by its count (R87) -/

theorem execRead_of_tooWide {s : State} {bits : Int} (h : (s.cfg.vw : Int) < bits) :
    execRead bits s = .next (s.respond .errWidth 0) :=
  wide_of_tooWide h (execRead_cases bits s)

theorem execRead_of_nonpos {s : State} {bits : Int} (h : bits ≤ 0) :
    execRead bits s = .next (s.respond .ok 0) :=
  noop_of_nonpos h (execRead_cases bits s)

/-- R86, R87: what is removed is the clamped length, what is answered are the oldest occupied bits. -/
theorem execRead_of_pos {s : State} {n : Nat} (h0 : 0 < n) (hv : n ≤ s.cfg.vw) :
    execRead n s = .next (State.respond { s with rc := (s.rc + min n s.size) % s.cap, full := false }
      .ok (bitsValue (s.contents.take n))) := by
  have he : execRead n s = .next ((s.advance n).respond .ok (s.oldest n)) := moved_of_pos h0 hv (execRead_cases n s)
  rw [he, oldest_eq_bitsValue, State.advance, clamped_natCast, fullAfterRead]

/-- Settles O26: the decoder's equation, then one equation of READ per range of the count; `respond` leaves every
field it does not name alone. -/
theorem readReturnsTheOldestBits : Obligations.ReadReturnsTheOldestBits := by
  unfold Obligations.ReadReturnsTheOldestBits
  exact ⟨fun _ => decode_read_word,
    fun _ => ⟨fun _ => execRead_of_tooWide, fun _ => execRead_of_nonpos, fun _ => execRead_of_pos⟩⟩

/-! ## PEEK, by its count (R88) -/

theorem execPeek_of_tooWide {s : State} {bits : Int} (h : (s.cfg.vw : Int) < bits) :
    execPeek bits s = .next (s.respond .errWidth 0) :=
  wide_of_tooWide h (execPeek_cases bits s)

theorem execPeek_of_nonpos {s : State} {bits : Int} (h : bits ≤ 0) :
    execPeek bits s = .next (s.respond .ok 0) :=
  noop_of_nonpos h (execPeek_cases bits s)

/-- R88: the answer is READ's, on the state PEEK found. -/
theorem execPeek_of_pos {s : State} {n : Nat} (h0 : 0 < n) (hv : n ≤ s.cfg.vw) :
    execPeek n s = .next (s.respond .ok (bitsValue (s.contents.take n))) := by
  have he : execPeek n s = .next (s.respond .ok (s.oldest n)) := moved_of_pos h0 hv (execPeek_cases n s)
  rw [he, oldest_eq_bitsValue]

/-- Settles O28: the decoder's equation, then one equation of PEEK per range of the count, each a bare response. -/
theorem peekReturnsTheOldestBits : Obligations.PeekReturnsTheOldestBits := by
  unfold Obligations.PeekReturnsTheOldestBits
  exact ⟨fun _ => decode_peek_word,
    fun _ => ⟨fun _ => execPeek_of_tooWide, fun _ => execPeek_of_nonpos, fun _ => execPeek_of_pos⟩⟩

end Sys2Proof.Proofs

/-! Proofs of the family "debug": DBG_STATE (R91). -/

namespace Sys2Proof.Proofs

open Sys2Proof.Machine
open Sys2Proof.Laws

/-! ## DBG_STATE (R91) -/

/-- R53, R55: opcode 7 with `Z28 = 0`. -/
theorem decode_dbgState_word : decode 0x70000000#32 = .ok .dbgState := by
  have hop : (0x70000000#32).toNat / 2 ^ 28 = 7 := by decide
  have hz28 : (0x70000000#32).toNat % 2 ^ 28 = 0 := by decide
  exact (decode_of_op_7 hop).trans (decodePlain_of_zero _ hz28)

/-- R5, R31: MAX_BYTES is at most `2^28` bytes, which bounds every legal capacity. -/
theorem cap_le_two_pow_31 {s : State} (h : s.Inv) : s.cap ≤ 2 ^ 31 := by
  obtain ⟨_, _, hmax, _⟩ := h.config
  obtain ⟨_, hcap⟩ := h.legalCap
  omega

/-- Three 32-bit fields and what stands above them come back from their sum. -/
theorem fields_of_packed {a b c : Nat} (top : Nat) (ha : a < 2 ^ 32) (hb : b < 2 ^ 32) (hc : c < 2 ^ 32) :
    let r := a + b * 2 ^ 32 + c * 2 ^ 64 + top * 2 ^ 96
    r % 2 ^ 32 = a ∧ r / 2 ^ 32 % 2 ^ 32 = b ∧ r / 2 ^ 64 % 2 ^ 32 = c ∧ r / 2 ^ 96 = top := by
  omega

/-- R31, R91: the registers fit the fields of DBG_STATE's word, since the cursors are below CAP. -/
theorem packed_fields {s : State} (h : s.Inv) :
    s.packed % 2 ^ 32 = s.rc ∧ s.packed / 2 ^ 32 % 2 ^ 32 = s.wc ∧ s.packed / 2 ^ 64 % 2 ^ 32 = s.cap ∧
      s.packed / 2 ^ 96 = s.full.toNat := by
  have hcap : s.cap < 2 ^ 32 := (cap_le_two_pow_31 h).trans_lt (by decide)
  exact fields_of_packed _ (h.rcInRange.trans hcap) (h.wcInRange.trans hcap) hcap

/-- Settles O44: the response is `exec_dbgState`, which leaves every field it does not name alone, and the invariants
make the registers fit the fields of its word. -/
theorem dbgStatePacksTheRegisters : Obligations.DbgStatePacksTheRegisters := by
  unfold Obligations.DbgStatePacksTheRegisters
  exact ⟨decode_dbgState_word, fun s => ⟨s.packed, exec_dbgState s, rfl, packed_fields⟩⟩

end Sys2Proof.Proofs

/-! Proofs of the family "exceptions": the errors and what is no error (R95, R96, R99, R101), and the block between
commands (R110). -/

namespace Sys2Proof.Proofs

open Sys2Proof.Machine
open Sys2Proof.Laws

/-! ## An error leaves no trace (R99) -/

/-- R13, R99: whatever its word, a command ends in one response, and in an error only on the state it found. -/
theorem finish_responds (s : State) (c : Command) :
    ∃ b st r, s.finish c = .next (b.respond st r) ∧ (st ≠ .ok → b = s ∧ r = 0) := by
  rcases finish_cases s c with ⟨i, _, hrun⟩ | ⟨_, _, hillegal⟩
  · obtain ⟨b, st, r, _, hexec, herr⟩ := exec_effect i s
    exact ⟨b, st, r, hrun.trans hexec, herr⟩
  · exact ⟨s, _, _, hillegal, fun _ => ⟨rfl, rfl⟩⟩

/-- Settles O46: a response to the state the command found, with result 0, leaves every field it does not name alone. -/
theorem errorsChangeNothing : Obligations.ErrorsChangeNothing := by
  unfold Obligations.ErrorsChangeNothing
  intro c s t h hst
  obtain ⟨b, st, r, hfin, herr⟩ := finish_responds s c
  cases hfin.symm.trans h
  obtain ⟨rfl, rfl⟩ := herr hst
  exact ⟨rfl, respond_cmdReady ..⟩

/-! ## The counts of WRITE, READ and PEEK (R56, R96) -/

theorem execWrite_of_tooWide {s : State} {bits : Int} (h : (s.cfg.vw : Int) < bits) :
    execWrite bits s = .next (s.respond .errWidth 0) :=
  wide_of_tooWide h (execWrite_cases bits s)

theorem execWrite_of_nonpos {s : State} {bits : Int} (h : bits ≤ 0) :
    execWrite bits s = .next (s.respond .ok 0) :=
  noop_of_nonpos h (execWrite_cases bits s)

section counts

variable {s : State} {bits : Int} {i : Instr}

theorem count_command_cases (hi : i ∈ [Instr.write bits, Instr.read bits, Instr.peek bits]) :
    i = .write bits ∨ i = .read bits ∨ i = .peek bits := by
  simpa using hi

/-- R96, for the three commands that carry a count. -/
theorem exec_of_tooWide (h : (s.cfg.vw : Int) < bits)
    (hi : i ∈ [Instr.write bits, Instr.read bits, Instr.peek bits]) : exec i s = .next (s.respond .errWidth 0) := by
  rcases count_command_cases hi with rfl | rfl | rfl
  · exact execWrite_of_tooWide h
  · exact execRead_of_tooWide h
  · exact execPeek_of_tooWide h

/-- R56, for the three commands that carry a count. -/
theorem exec_of_nonpos (h : bits ≤ 0)
    (hi : i ∈ [Instr.write bits, Instr.read bits, Instr.peek bits]) : exec i s = .next (s.respond .ok 0) := by
  rcases count_command_cases hi with rfl | rfl | rfl
  · exact execWrite_of_nonpos h
  · exact execRead_of_nonpos h
  · exact execPeek_of_nonpos h

end counts

/-- Settles O23: above VW the answer is `raise ERR_WIDTH` on the state the command found, up to 0 it is OK. -/
theorem countsAboveTheBusRaiseErrWidth : Obligations.CountsAboveTheBusRaiseErrWidth := by
  unfold Obligations.CountsAboveTheBusRaiseErrWidth
  refine fun s bits => ⟨fun hw i hi => exec_of_tooWide hw hi, fun hneg i hi t ht => ?_⟩
  cases (exec_of_nonpos hneg hi).symm.trans ht
  simp

/-! ## What is no error (R101) -/

/-- A command that responds OK completes, whatever it did to the state before. -/
theorem completes_of_respond_ok {o : Host.Outcome State Fault Refusal} {b : State} {r : Nat}
    (h : o = .next (b.respond .ok r)) : ∃ t, o = .next t ∧ t.rspStatus = .ok :=
  ⟨_, h, respond_rspStatus ..⟩

section completes

variable {s : State} {n : Nat}

theorem execRead_completes (hv : n ≤ s.cfg.vw) : ∃ t, execRead n s = .next t ∧ t.rspStatus = .ok := by
  rcases execRead_cases n s with ⟨hwide, _⟩ | ⟨_, hnoop⟩ | ⟨_, _, _, _, hread⟩
  · omega
  · exact completes_of_respond_ok hnoop
  · exact completes_of_respond_ok hread

theorem execPeek_completes (hv : n ≤ s.cfg.vw) : ∃ t, execPeek n s = .next t ∧ t.rspStatus = .ok := by
  rcases execPeek_cases n s with ⟨hwide, _⟩ | ⟨_, hnoop⟩ | ⟨_, _, _, _, hpeek⟩
  · omega
  · exact completes_of_respond_ok hnoop
  · exact completes_of_respond_ok hpeek

/-- R72: a WRITE on the bus is refused only by growth past MAX_BYTES. -/
theorem execWrite_completes (hv : n ≤ s.cfg.vw)
    (hroom : 0 < n → s.cap < n + s.size → s.targetCap n / 8 ≤ s.cfg.maxBytes) :
    ∃ t, execWrite n s = .next t ∧ t.rspStatus = .ok := by
  rcases execWrite_cases n s with
    ⟨hwide, _⟩ | ⟨_, hnoop⟩ | ⟨k, hk, h0, _, ⟨_, hfits⟩ | ⟨hfull, hmax, _⟩ | ⟨_, _, hgrows⟩⟩
  · omega
  · exact completes_of_respond_ok hnoop
  · exact completes_of_respond_ok hfits
  · obtain rfl : n = k := by exact_mod_cast hk
    exact absurd (hroom h0 hfull) (not_le.mpr hmax)
  · exact completes_of_respond_ok hgrows

end completes

/-- Settles O48: of the ways a command can end, the conditions of R101 leave only those that respond OK; the least
doubling of the third is the target of growth (R71). -/
theorem conditionsThatAreNoErrors : Obligations.ConditionsThatAreNoErrors := by
  unfold Obligations.ConditionsThatAreNoErrors
  refine fun s => ⟨fun bits hneg i hi => ?noop, fun n hv i hi => ?read, fun n m hc hv hroom => ?write,
    fun i hi => ?plain⟩
  case noop => exact completes_of_respond_ok (exec_of_nonpos hneg hi)
  case read =>
    simp only [List.mem_cons, List.not_mem_nil, or_false] at hi
    rcases hi with rfl | rfl
    · exact execRead_completes hv
    · exact execPeek_completes hv
  case write =>
    refine execWrite_completes hv fun h0 hfull => ?_
    rcases hroom with hfits | ⟨hleast, hmax⟩
    · omega
    · rwa [targetCap_eq hc hleast h0]
  case plain =>
    simp only [List.mem_cons, List.not_mem_nil, or_false] at hi
    rcases hi with rfl | rfl | rfl
    · exact completes_of_respond_ok (exec_clear s)
    · exact completes_of_respond_ok (exec_size s)
    · exact completes_of_respond_ok (exec_dbgState s)

/-! ## The edges without reset (R110, R113, R114) -/

section edges

variable {s : State} (hwf : s.cfg.Wf) (hrst : s.driven.rst = false)

include hwf hrst

/-- R110: nothing presented, nothing done. -/
theorem step_of_quiet (hp : s.phase = .idle) (hv : s.driven.cmdValid = false) :
    step s = .next { s with rspValid := false, inputs := s.inputs.tail } := by
  rw [step_of_wf hwf]
  simpa [hrst, hp, hv] using clockEdge_cases { s with inputs := s.inputs.tail } s.driven

/-- R113, R114: with LATENCY 1 the accepting edge ends the command. -/
theorem step_of_accept_now (hp : s.phase = .idle) (hv : s.driven.cmdValid = true)
    (hl : s.busyCycles.headD 0 = 0) :
    step s = State.finish { s with
      inputs := s.inputs.tail, busyCycles := s.busyCycles.tail, rspValid := false,
      phase := .busy (s.sampled s.driven) 0 } (s.sampled s.driven) := by
  have haccept : step s = State.accept { s with inputs := s.inputs.tail }
      (State.sampled { s with inputs := s.inputs.tail } s.driven) := by
    rw [step_of_wf hwf]
    simpa [hrst, hp, hv] using clockEdge_cases { s with inputs := s.inputs.tail } s.driven
  rcases accept_cases { s with inputs := s.inputs.tail } (s.sampled s.driven) with ⟨_, hnow⟩ | ⟨left, hlater, _⟩
  · exact haccept.trans hnow
  · exact absurd (hl.symm.trans hlater) (Nat.succ_ne_zero left).symm

/-- R113: the edge that ends the last BUSY cycle ends the command. -/
theorem step_of_last_busy {c : Command} (hp : s.phase = .busy c 0) :
    step s = State.finish { s with inputs := s.inputs.tail } c := by
  rw [step_of_wf hwf]
  simpa [hrst, hp] using clockEdge_cases { s with inputs := s.inputs.tail } s.driven

end edges

/-- Settles O13: `cmd_ready` says that PHASE is IDLE, and the edge is `step_of_quiet`. -/
theorem idleBlockHoldsItsState : Obligations.IdleBlockHoldsItsState := by
  unfold Obligations.IdleBlockHoldsItsState
  intro s hwf hp hrst hv
  exact ⟨by simp [State.cmdReady, hp], _, step_of_quiet hwf hrst hp hv, rfl⟩

/-! ## ILLEGAL words (R95) -/

/-- R95: the decoder refuses exactly the ILLEGAL words, and a refused word answers ERR_ILLEGAL. -/
theorem finish_of_illegal (s : State) {c : Command} (h : IllegalWord c.word) :
    s.finish c = .next (s.respond .errIllegal 0) := by
  obtain ⟨e, herror⟩ := (illegalWord_iff_decode_error c.word).mp h
  rcases finish_cases s c with ⟨i, hok, _⟩ | ⟨_, _, hillegal⟩
  · cases hok.symm.trans herror
  · exact hillegal

/-- Settles O11: either edge ends the command by `State.finish`, whose answer to an ILLEGAL word is a bare response. -/
theorem illegalWordsAnswerErrIllegal : Obligations.IllegalWordsAnswerErrIllegal := by
  unfold Obligations.IllegalWordsAnswerErrIllegal
  refine ⟨fun s hwf hp hrst hv hl hill => ?accepted, fun s c hwf hp hrst hill => ?lastBusy⟩
  case accepted => exact ⟨_, (step_of_accept_now hwf hrst hp hv hl).trans (finish_of_illegal _ hill), rfl⟩
  case lastBusy => exact ⟨_, (step_of_last_busy hwf hrst hp).trans (finish_of_illegal _ hill), rfl⟩

end Sys2Proof.Proofs

/-! Proofs of the family "reset and hazards": the reset edge (R111, R112). -/

namespace Sys2Proof.Proofs

open Sys2Proof.Machine
open Sys2Proof.Laws

/-- R111: of the ways an edge goes only the first has `rst = 1`, and that one looks at neither PHASE nor the command
presented; the host goes on to its next cycle and the free latencies stay (log 15). -/
theorem step_of_rst {s : State} (hwf : s.cfg.Wf) (hrst : s.driven.rst = true) :
    step s = .next (State.resetWith s.cfg s.inputs.tail s.busyCycles) := by
  rw [step_of_wf hwf]
  rcases clockEdge_cases { s with inputs := s.inputs.tail } s.driven with
    ⟨_, hreset⟩ | ⟨hno, _⟩ | ⟨hno, _⟩ | ⟨hno, _⟩ | ⟨hno, _⟩
  · exact hreset
  all_goals exact absurd hrst (by simp [hno])

/-- Settles O2: the edge is `step_of_rst`, and the reset state's STORE lists no byte, so every byte reads blank. -/
theorem resetEdgeAbortsAnyCommand : Obligations.ResetEdgeAbortsAnyCommand := by
  unfold Obligations.ResetEdgeAbortsAnyCommand
  exact fun s hwf hrst => ⟨_, step_of_rst hwf hrst, rfl, read_nil⟩

end Sys2Proof.Proofs

/-! Proofs of the family "other", part 1: the encoder against the decoder (R51 to R55, R63) and the assembler
(R64, R65). -/

namespace Sys2Proof.Proofs

open Sys2Proof.Machine
open Sys2Proof.Laws

/-! ## From a command to its word and back -/

/-- R52, R56: the word of a count command decodes by its opcode's arm to the count it was built from. -/
theorem decodeCount_countWord (command : Int → Instr) (op : BitVec 4) {bits : Int} (h : CountFits bits) :
    decodeCount command (countWord op bits) = .ok (command bits) :=
  decodeCount_count_word command h (countWord_toNat op bits)

theorem opcode_countWord (op : BitVec 4) (bits : Int) : (countWord op bits).toNat / 2 ^ 28 = op.toNat :=
  opcode_of_count_word (countWord_toNat op bits)

theorem opcode_indexWord (op : BitVec 4) (index : Nat) : (indexWord op index).toNat / 2 ^ 28 = op.toNat := by
  rw [indexWord_toNat]
  omega

/-- R54: the low 28 bits of a format X word are its index. -/
theorem low28_indexWord (op : BitVec 4) {index : Nat} (h : IndexFits index) :
    (indexWord op index).toNat % 2 ^ 28 = index := by
  rw [indexWord_toNat]
  omega

/-- R53: the word of a command without operand has `Z28 = 0`. -/
theorem decodePlain_indexWord_zero (command : Instr) (op : BitVec 4) :
    decodePlain command (indexWord op 0) = .ok command :=
  decodePlain_of_zero command (low28_indexWord op (by decide))

/-- Settles O6: per command, the equation of its opcode and the field of its format read back. -/
theorem decodeInvertsEncode : Obligations.DecodeInvertsEncode := by
  unfold Obligations.DecodeInvertsEncode
  intro i hwf
  cases i with
  | write bits =>
    exact (decode_of_op_1 (opcode_countWord 1 bits)).trans (decodeCount_countWord .write 1 (of_decide_eq_true hwf))
  | read bits =>
    exact (decode_of_op_2 (opcode_countWord 2 bits)).trans (decodeCount_countWord .read 2 (of_decide_eq_true hwf))
  | peek bits =>
    exact (decode_of_op_3 (opcode_countWord 3 bits)).trans (decodeCount_countWord .peek 3 (of_decide_eq_true hwf))
  | size => exact (decode_of_op_4 (opcode_indexWord 4 0)).trans (decodePlain_indexWord_zero .size 4)
  | clear => exact (decode_of_op_5 (opcode_indexWord 5 0)).trans (decodePlain_indexWord_zero .clear 5)
  | dbgByte index =>
    have hindex := low28_indexWord 6 (of_decide_eq_true hwf : IndexFits index)
    exact (decode_of_op_6 (opcode_indexWord 6 index)).trans (by rw [hindex])
  | dbgState => exact (decode_of_op_7 (opcode_indexWord 7 0)).trans (decodePlain_indexWord_zero .dbgState 7)

/-! ## From a word to its command and back -/

/-- R11, R56: the count a word carries is one that a word can carry. -/
theorem countFits_countOf (w : Word) : CountFits (countOf w) := by
  unfold CountFits countOf
  split_ifs <;> omega

/-- R11: sign extension keeps the residue modulo `2^16`. -/
theorem countOf_emod (w : Word) : (countOf w % 2 ^ 16).toNat = w.toNat % 2 ^ 16 := by
  unfold countOf
  split_ifs <;> omega

section inverse

variable {w : Word} {i : Instr} {op : BitVec 4} (hop : w.toNat / 2 ^ 28 = op.toNat)

include hop

/-- R52: a format C word that decodes is the word of the count it decodes to. -/
theorem eq_countWord_of_decodeCount {command : Int → Instr} (h : decodeCount command w = .ok i) :
    ∃ bits, i = command bits ∧ CountFits bits ∧ countWord op bits = w := by
  by_cases hz : w.toNat / 2 ^ 16 % 2 ^ 12 = 0
  · cases (decodeCount_of_zero command hz).symm.trans h
    refine ⟨countOf w, rfl, countFits_countOf w, BitVec.eq_of_toNat_eq ?_⟩
    rw [countWord_toNat, countOf_emod, ← hop]
    omega
  · cases (decodeCount_of_ne_zero command hz).symm.trans h

/-- R53: a format N word that decodes is the word of its command. -/
theorem eq_indexWord_of_decodePlain {command : Instr} (h : decodePlain command w = .ok i) :
    i = command ∧ indexWord op 0 = w := by
  by_cases hz : w.toNat % 2 ^ 28 = 0
  · cases (decodePlain_of_zero command hz).symm.trans h
    refine ⟨rfl, BitVec.eq_of_toNat_eq ?_⟩
    rw [indexWord_toNat, ← hop]
    omega
  · cases (decodePlain_of_ne_zero command hz).symm.trans h

/-- R54: a format X word is the word of its low 28 bits. -/
theorem indexWord_low28 : indexWord op (w.toNat % 2 ^ 28) = w := by
  apply BitVec.eq_of_toNat_eq
  rw [indexWord_toNat, ← hop]
  omega

end inverse

/-- Settles O7: the opcode says which equation decoded the word, and each format's word is rebuilt from its fields. -/
theorem encodeInvertsDecode : Obligations.EncodeInvertsDecode := by
  unfold Obligations.EncodeInvertsDecode
  intro w i h
  rcases opcode_cases (w.toNat / 2 ^ 28) with (hop | hop | hop) | (hop | hop | hop) | hop | hop
  · obtain ⟨bits, rfl, hfits, hw⟩ := eq_countWord_of_decodeCount (op := 1) hop ((decode_of_op_1 hop).symm.trans h)
    exact ⟨decide_eq_true hfits, hw⟩
  · obtain ⟨bits, rfl, hfits, hw⟩ := eq_countWord_of_decodeCount (op := 2) hop ((decode_of_op_2 hop).symm.trans h)
    exact ⟨decide_eq_true hfits, hw⟩
  · obtain ⟨bits, rfl, hfits, hw⟩ := eq_countWord_of_decodeCount (op := 3) hop ((decode_of_op_3 hop).symm.trans h)
    exact ⟨decide_eq_true hfits, hw⟩
  · obtain ⟨rfl, hw⟩ := eq_indexWord_of_decodePlain (op := 4) hop ((decode_of_op_4 hop).symm.trans h)
    exact ⟨rfl, hw⟩
  · obtain ⟨rfl, hw⟩ := eq_indexWord_of_decodePlain (op := 5) hop ((decode_of_op_5 hop).symm.trans h)
    exact ⟨rfl, hw⟩
  · obtain ⟨rfl, hw⟩ := eq_indexWord_of_decodePlain (op := 7) hop ((decode_of_op_7 hop).symm.trans h)
    exact ⟨rfl, hw⟩
  · cases (decode_of_op_6 hop).symm.trans h
    exact ⟨decide_eq_true (Nat.mod_lt _ (by decide)), indexWord_low28 (op := 6) hop⟩
  · cases (decode_of_reserved hop).symm.trans h

/-! ## The assembler (R64, R65) -/

/-- R65: for operands its word can carry, a line's sum is the number of its command's word. -/
theorem encode_toNat_eq_busWord {a : Asm} (h : a.instr.wellFormed = true) : (encode a.instr).toNat = a.busWord := by
  cases a with
  | write _ bits => exact countWord_toNat 1 bits
  | read bits => exact countWord_toNat 2 bits
  | peek bits => exact countWord_toNat 3 bits
  | dbgByte index =>
    have hindex : index < 2 ^ 28 := of_decide_eq_true h
    exact (indexWord_toNat 6 index).trans (by rw [Nat.mod_eq_of_lt hindex]; rfl)
  | size => exact indexWord_toNat 4 0
  | clear => exact indexWord_toNat 5 0
  | dbgState => exact indexWord_toNat 7 0

theorem assemble_of_inRange {c : Config} {a : Asm} (hwf : a.instr.wellFormed = true) (hv : a.value < 2 ^ c.vw) :
    a.assemble c = .ok (encode a.instr, a.value) := by
  have hin : a.inRange c = true := by simp [Asm.inRange, hwf, hv]
  rw [Asm.assemble, if_pos hin, ← encode_toNat_eq_busWord hwf, BitVec.ofNat_toNat, BitVec.setWidth_eq]

theorem assemble_of_outOfRange {c : Config} {a : Asm}
    (h : a.instr.wellFormed = false ∨ 2 ^ c.vw ≤ a.value) : a.assemble c = .error .outOfRange := by
  have hout : ¬ a.inRange c = true := by
    rcases h with hwf | hv
    · simp [Asm.inRange, hwf]
    · simp [Asm.inRange, hv]
  rw [Asm.assemble, if_neg hout]

/-- Settles O8: `inRange` chooses the answer, and the sum of R65 is the encoder's word by `encode_toNat_eq_busWord`. -/
theorem assemblerDrivesTheCommandsWord : Obligations.AssemblerDrivesTheCommandsWord := by
  unfold Obligations.AssemblerDrivesTheCommandsWord
  exact fun _ _ =>
    ⟨fun hwf hv => ⟨assemble_of_inRange hwf hv, encode_toNat_eq_busWord hwf⟩, assemble_of_outOfRange⟩

/-! ## Words written out -/

theorem decode_of_eq_encode {w : Word} {i : Instr} (hw : w = encode i) (hwf : i.wellFormed = true) :
    decode w = .ok i :=
  hw ▸ decodeInvertsEncode i hwf

/-- Settles O5: each word is the encoder's word of the command beside it, a well-formed one (O6). -/
theorem sampleWordsDecode : Obligations.SampleWordsDecode := by
  unfold Obligations.SampleWordsDecode
  refine ⟨decode_of_eq_encode ?_ ?_, decode_of_eq_encode ?_ ?_, decode_of_eq_encode ?_ ?_,
    decode_of_eq_encode ?_ ?_, decode_of_eq_encode ?_ ?_, decode_of_eq_encode ?_ ?_, decode_of_eq_encode ?_ ?_⟩
  all_goals decide

end Sys2Proof.Proofs

/-! Proofs of the family "other", part 2: the ports, the handshake and programs (R110 to R122). -/

namespace Sys2Proof.Proofs

open Sys2Proof.Machine
open Sys2Proof.Laws

/-! ## The remaining edges (R113, R114), and all of them together -/

section edges

variable {s : State} (hwf : s.cfg.Wf) (hrst : s.driven.rst = false)

include hwf hrst

/-- R114: with a longer LATENCY the accepting edge samples the command and leaves the block BUSY. -/
theorem step_of_accept_later {left : Nat} (hp : s.phase = .idle) (hv : s.driven.cmdValid = true)
    (hl : s.busyCycles.headD 0 = left + 1) :
    step s = .next { s with
      inputs := s.inputs.tail, busyCycles := s.busyCycles.tail, rspValid := false,
      phase := .busy (s.sampled s.driven) left } := by
  have haccept : step s = State.accept { s with inputs := s.inputs.tail }
      (State.sampled { s with inputs := s.inputs.tail } s.driven) := by
    rw [step_of_wf hwf]
    simpa [hrst, hp, hv] using clockEdge_cases { s with inputs := s.inputs.tail } s.driven
  rcases accept_cases { s with inputs := s.inputs.tail } (s.sampled s.driven) with ⟨hnow, _⟩ | ⟨left', hlater, he⟩
  · exact absurd (hl.symm.trans hnow) (Nat.succ_ne_zero left)
  · obtain rfl : left = left' := Nat.succ.inj (hl.symm.trans hlater)
    exact haccept.trans he

/-- R114: a BUSY cycle that is not the last accepts nothing and counts down. -/
theorem step_of_waiting {c : Command} {left : Nat} (hp : s.phase = .busy c (left + 1)) :
    step s = .next { s with inputs := s.inputs.tail, phase := .busy c left, rspValid := false } := by
  rw [step_of_wf hwf]
  simpa [hrst, hp] using clockEdge_cases { s with inputs := s.inputs.tail } s.driven

end edges

/-- The ways a step can go: a reset edge, an idle cycle, an accepting edge with LATENCY 1 or a longer one, a BUSY cycle,
and the edge that ends the last BUSY cycle (R110 to R116). -/
inductive Edge (s : State) : State → Prop where
  | reset (hrst : s.driven.rst = true) : Edge s (State.resetWith s.cfg s.inputs.tail s.busyCycles)
  | quiet (hrst : s.driven.rst = false) (hp : s.phase = .idle) (hv : s.driven.cmdValid = false) :
      Edge s { s with rspValid := false, inputs := s.inputs.tail }
  | acceptNow {t : State} (hrst : s.driven.rst = false) (hp : s.phase = .idle) (hv : s.driven.cmdValid = true)
      (hl : s.busyCycles.headD 0 = 0)
      (hfin : State.finish { s with
        inputs := s.inputs.tail, busyCycles := s.busyCycles.tail, rspValid := false,
        phase := .busy (s.sampled s.driven) 0 } (s.sampled s.driven) = .next t) : Edge s t
  | acceptLater (left : Nat) (hrst : s.driven.rst = false) (hp : s.phase = .idle) (hv : s.driven.cmdValid = true)
      (hl : s.busyCycles.headD 0 = left + 1) :
      Edge s { s with
        inputs := s.inputs.tail, busyCycles := s.busyCycles.tail, rspValid := false,
        phase := .busy (s.sampled s.driven) left }
  | waiting (c : Command) (left : Nat) (hrst : s.driven.rst = false) (hp : s.phase = .busy c (left + 1)) :
      Edge s { s with inputs := s.inputs.tail, phase := .busy c left, rspValid := false }
  | lastBusy {t : State} (c : Command) (hrst : s.driven.rst = false) (hp : s.phase = .busy c 0)
      (hfin : State.finish { s with inputs := s.inputs.tail } c = .next t) : Edge s t

/-- The block always steps, by one of its edges (R99: no command stops it). -/
theorem step_next_edge {s : State} (hwf : s.cfg.Wf) : ∃ t, step s = .next t ∧ Edge s t := by
  cases hrst : s.driven.rst with
  | true => exact ⟨_, step_of_rst hwf hrst, .reset hrst⟩
  | false =>
    cases hp : s.phase with
    | busy c left =>
      cases left with
      | zero =>
        obtain ⟨t, hfin, _⟩ := finish_next { s with inputs := s.inputs.tail } c
        exact ⟨t, (step_of_last_busy hwf hrst hp).trans hfin, .lastBusy c hrst hp hfin⟩
      | succ left => exact ⟨_, step_of_waiting hwf hrst hp, .waiting c left hrst hp⟩
    | idle =>
      cases hv : s.driven.cmdValid with
      | false => exact ⟨_, step_of_quiet hwf hrst hp hv, .quiet hrst hp hv⟩
      | true =>
        cases hl : s.busyCycles.headD 0 with
        | zero =>
          obtain ⟨t, hfin, _⟩ := finish_next { s with
            inputs := s.inputs.tail, busyCycles := s.busyCycles.tail, rspValid := false,
            phase := .busy (s.sampled s.driven) 0 } (s.sampled s.driven)
          exact ⟨t, (step_of_accept_now hwf hrst hp hv hl).trans hfin, .acceptNow hrst hp hv hl hfin⟩
        | succ left => exact ⟨_, step_of_accept_later hwf hrst hp hv hl, .acceptLater left hrst hp hv hl⟩

theorem edge_of_step {s t : State} (h : step s = .next t) : Edge s t := by
  obtain ⟨t', hstep, hedge⟩ := step_next_edge (wf_of_step h)
  cases hstep.symm.trans h
  exact hedge

/-! ## What a finished command leaves alone -/

section finished

variable {s t : State} {c : Command} (h : s.finish c = .next t)

include h

theorem finish_rspValid : t.rspValid = true := by
  obtain ⟨t', hfin, hvalid, _⟩ := finish_next s c
  cases hfin.symm.trans h
  exact hvalid

theorem finish_phase : t.phase = .idle := by
  obtain ⟨t', hfin, _, hidle, _⟩ := finish_next s c
  cases hfin.symm.trans h
  exact hidle

/-- No command touches the configuration or the model's environment fields. -/
theorem finish_environment : t.cfg = s.cfg ∧ t.inputs = s.inputs ∧ t.busyCycles = s.busyCycles := by
  obtain ⟨t', hfin, _, _, henv⟩ := finish_next s c
  cases hfin.symm.trans h
  exact henv

end finished

theorem finish_of_decode {s : State} {c : Command} {i : Instr} (h : decode c.word = .ok i) :
    s.finish c = exec i s := by
  simp only [State.finish, h]

/-! ## The step and the environment -/

/-- Settles O14: edge by edge; a finished command moves neither list (`finish_environment`). -/
theorem environmentMovesOn : Obligations.EnvironmentMovesOn := by
  unfold Obligations.EnvironmentMovesOn
  intro s t h
  cases edge_of_step h with
  | reset hrst => exact ⟨rfl, rfl, (if_neg (by simp [hrst])).symm⟩
  | quiet hrst hp hv => exact ⟨rfl, rfl, (if_neg (by simp [hv])).symm⟩
  | acceptNow hrst hp hv hl hfin =>
    obtain ⟨hcfg, hinputs, hbusy⟩ := finish_environment hfin
    exact ⟨hcfg, hinputs, hbusy.trans (if_pos ⟨hrst, hv, hp⟩).symm⟩
  | acceptLater left hrst hp hv hl => exact ⟨rfl, rfl, (if_pos ⟨hrst, hv, hp⟩).symm⟩
  | waiting c left hrst hp => exact ⟨rfl, rfl, (if_neg (by simp [hp])).symm⟩
  | lastBusy c hrst hp hfin =>
    obtain ⟨hcfg, hinputs, hbusy⟩ := finish_environment hfin
    exact ⟨hcfg, hinputs, hbusy.trans (if_neg (by simp [hp])).symm⟩

/-- Settles O16: every edge has a next state, and O14 says what it does to the configuration. -/
theorem blockNeverStops : Obligations.BlockNeverStops := by
  unfold Obligations.BlockNeverStops
  intro s hwf
  obtain ⟨t, hstep, _⟩ := step_next_edge hwf
  exact ⟨t, hstep, (environmentMovesOn s t hstep).1⟩

/-- Settles O17: the configuration check stands before everything else in the step. -/
theorem otherConfigurationsAreRefused : Obligations.OtherConfigurationsAreRefused := by
  unfold Obligations.OtherConfigurationsAreRefused
  exact fun _ hwf => if_neg hwf

/-- Settles O15: only the two edges that finish a command leave `rsp_valid` at 1; the others change no register but
PHASE. -/
theorem oneResponsePulsePerCommand : Obligations.OneResponsePulsePerCommand := by
  unfold Obligations.OneResponsePulsePerCommand
  intro s t hno h
  cases edge_of_step h with
  | reset hrst => simp [hno] at hrst
  | quiet hrst hp hv =>
    exact ⟨by simp [hp, hv], fun hvalid => by simp at hvalid, fun _ => ⟨rfl, rfl⟩⟩
  | acceptLater left hrst hp hv hl =>
    exact ⟨by simp [hp, hl, -List.headD_eq_head?_getD], fun hvalid => by simp at hvalid, fun _ => ⟨rfl, rfl⟩⟩
  | waiting c left hrst hp =>
    exact ⟨by simp [hp], fun hvalid => by simp at hvalid, fun _ => ⟨rfl, rfl⟩⟩
  | acceptNow hrst hp hv hl hfin =>
    have hvalid := finish_rspValid hfin
    have hready : t.cmdReady = true := by simp [State.cmdReady, finish_phase hfin]
    exact ⟨by simp [hvalid, hp, hv, hl, -List.headD_eq_head?_getD], fun _ => hready, fun hsilent => by simp [hvalid] at hsilent⟩
  | lastBusy c hrst hp hfin =>
    have hvalid := finish_rspValid hfin
    have hready : t.cmdReady = true := by simp [State.cmdReady, finish_phase hfin]
    exact ⟨by simp [hvalid, hp], fun _ => hready, fun hsilent => by simp [hvalid] at hsilent⟩

/-- Settles O9: either edge finishes the command, and finishing a word that decodes is `exec`. -/
theorem stepRunsTheDecodedCommand : Obligations.StepRunsTheDecodedCommand := by
  unfold Obligations.StepRunsTheDecodedCommand
  refine ⟨fun s i hwf hp hrst hv hl hdec => ?accepted, fun s i c hwf hp hrst hdec => ?lastBusy⟩
  case accepted => exact (step_of_accept_now hwf hrst hp hv hl).trans (finish_of_decode hdec)
  case lastBusy => exact (step_of_last_busy hwf hrst hp).trans (finish_of_decode hdec)

theorem decode_of_decodeTableWord {w : Nat} {i : Instr} (h : decodeTableWord 32 w = some i) :
    decode (BitVec.ofNat 32 (w % 2 ^ 32)) = .ok i := by
  unfold decodeTableWord at h
  split at h
  next hdec => rw [hdec, Option.some.inj h]
  next => cases h

theorem ofNat_mod_two_pow_32 (w : Nat) : BitVec.ofNat 32 (w % 2 ^ 32) = BitVec.ofNat 32 w := by
  apply BitVec.eq_of_toNat_eq
  simp

/-- Settles O10: `withFetchWord` meets the premises of O9's first clause. -/
theorem stepRunsTheFetchWord : Obligations.StepRunsTheFetchWord := by
  unfold Obligations.StepRunsTheFetchWord
  intro s w i hwf h
  have hrun := stepRunsTheDecodedCommand.1 (s.withFetchWord 32 w) i hwf rfl rfl rfl rfl (decode_of_decodeTableWord h)
  rw [hrun, ← ofNat_mod_two_pow_32 w]
  rfl

/-- Settles O12: `cmd_ready` by the two phases, then one edge per clause. -/
theorem oneCommandAtATime : Obligations.OneCommandAtATime := by
  unfold Obligations.OneCommandAtATime
  refine ⟨fun s => ?ready, fun s hwf hp hrst hv hl => ?now, fun s left hwf hp hrst hv hl => ?later,
    fun s c left hwf hp hrst => ?waiting⟩
  case ready => cases hp : s.phase <;> simp [State.cmdReady, hp]
  case now =>
    obtain ⟨t, hfin, hvalid, hidle, _⟩ := finish_next { s with
      inputs := s.inputs.tail, busyCycles := s.busyCycles.tail, rspValid := false,
      phase := .busy (s.sampled s.driven) 0 } (s.sampled s.driven)
    exact ⟨t, (step_of_accept_now hwf hrst hp hv hl).trans hfin, hidle, hvalid⟩
  case later => exact ⟨_, step_of_accept_later hwf hrst hp hv hl, rfl⟩
  case waiting => exact ⟨_, step_of_waiting hwf hrst hp, rfl⟩

/-! ## Waiting out a LATENCY (R113, R119) -/

/-- `n` steps that each leave `rsp_valid` at 0. -/
inductive SilentSteps : Nat → State → State → Prop where
  | refl (s : State) : SilentSteps 0 s s
  | head {n : Nat} {s t u : State} (hstep : step s = .next t) (hsilent : t.rspValid = false)
      (hrest : SilentSteps n t u) : SilentSteps (n + 1) s u

theorem cycles_of_silent {n : Nat} {s u : State} (h : SilentSteps n s u) (k : Nat) :
    s.cycles (n + k) = u.cycles k := by
  induction h with
  | refl s => rw [Nat.zero_add]
  | head hstep _ _ ih => rw [Nat.succ_add, cycles_succ _ hstep, ih]

/-- A step seen from the ports adds its response, if it leaves one, to what the later cycles show. -/
theorem watch_succ {s t : State} (n : Nat) (h : step s = .next t) :
    s.watch (n + 1) = (t.watch n).map (fun r => (if t.rspValid then t.response :: r.1 else r.1, r.2)) := by
  simp only [State.watch, h]

/-- Silent steps show nothing. -/
theorem watch_of_silent {n : Nat} {s u : State} (h : SilentSteps n s u) (k : Nat) :
    s.watch (n + k) = u.watch k := by
  induction h with
  | refl s => rw [Nat.zero_add]
  | head hstep hsilent _ ih =>
    rw [Nat.succ_add, watch_succ _ hstep, ih]
    simp [hsilent]

theorem noReset_cons {p : PortIn} {ps : List PortIn} (h : noReset (p :: ps) = true) :
    p.rst = false ∧ noReset ps = true := by
  simpa [noReset] using h

/-- R114: whatever is presented in the BUSY cycles before the last, they pass in silence and change nothing but the
countdown. -/
theorem silent_of_busy {c : Command} {p : PortIn} {rest : List PortIn} (ps : List PortIn) {s : State}
    (hwf : s.cfg.Wf) (hp : s.phase = .busy c ps.length) (hno : noReset ps = true)
    (hin : s.inputs = ps ++ p :: rest) (hsilent : s.rspValid = false) :
    SilentSteps ps.length s { s with phase := .busy c 0, inputs := p :: rest } := by
  induction ps generalizing s with
  | nil =>
    have hlast : s.phase = .busy c 0 := hp
    have hhost : s.inputs = p :: rest := hin
    rw [← hlast, ← hhost]
    exact .refl s
  | cons q ps ih =>
    obtain ⟨hq, hps⟩ := noReset_cons hno
    have hrst : s.driven.rst = false := by simp [State.driven, hin, hq]
    refine .head (step_of_waiting hwf hrst hp) rfl ?_
    have htail : s.inputs.tail = ps ++ p :: rest := by rw [hin]; rfl
    have hrest := ih (s := { s with inputs := s.inputs.tail, phase := .busy c ps.length, rspValid := false })
      hwf rfl hps htail rfl
    rw [hsilent.symm] at hrest ⊢
    exact hrest

/-- R113, R114: a command presented to an idle block passes its BUSY cycles in silence, and the edge after them is the
command performed in no time. -/
theorem silent_then_performs {s : State} {p : PortIn} {ps rest : List PortIn} {ls : List Nat}
    (hwf : s.cfg.Wf) (hp : s.phase = .idle) (hv : p.cmdValid = true) (hno : noReset (p :: ps) = true)
    (hin : s.inputs = p :: ps ++ rest) (hbusy : s.busyCycles = ps.length :: ls) :
    ∃ u, SilentSteps ps.length s u ∧
      step u = State.perform { s with inputs := rest, busyCycles := ls } (s.sampled p) := by
  obtain ⟨hrstp, hnops⟩ := noReset_cons hno
  have hdriven : s.driven = p := by simp [State.driven, hin]
  have hrst : s.driven.rst = false := hdriven ▸ hrstp
  have hvalid : s.driven.cmdValid = true := hdriven ▸ hv
  have htail : s.inputs.tail = ps ++ rest := by rw [hin]; rfl
  have hls : s.busyCycles.tail = ls := by rw [hbusy]; rfl
  rcases ps.eq_nil_or_concat' with rfl | ⟨qs, q, rfl⟩
  case inl =>
    have hl : s.busyCycles.headD 0 = 0 := by simp [hbusy]
    refine ⟨s, .refl s, ?_⟩
    rw [step_of_accept_now hwf hrst hp hvalid hl, hdriven, htail, hls]
    rfl
  case inr =>
    have hl : s.busyCycles.headD 0 = qs.length + 1 := by simp [hbusy]
    have hnoqs : noReset qs = true ∧ q.rst = false := by simpa [noReset] using hnops
    have htail' : s.inputs.tail = qs ++ q :: rest := by simp [htail]
    have haccept := step_of_accept_later hwf hrst hp hvalid hl
    rw [hdriven, hls, htail'] at haccept
    have hwait := silent_of_busy (p := q) (rest := rest) qs
      (s := { s with inputs := qs ++ q :: rest, busyCycles := ls, rspValid := false,
                     phase := .busy (s.sampled p) qs.length }) hwf rfl hnoqs.1 rfl rfl
    rw [List.length_append, List.length_singleton]
    refine ⟨_, .head haccept rfl hwait, step_of_last_busy (c := s.sampled p) ?_ ?_ rfl⟩
    · exact hwf
    · exact hnoqs.2

/-- A performed command answers, from PHASE IDLE on, and leaves the configuration and the environment alone. -/
theorem perform_next (s : State) (c : Command) :
    ∃ t, s.perform c = .next t ∧ t.rspValid = true ∧ t.phase = .idle ∧ t.cfg = s.cfg ∧ t.inputs = s.inputs ∧
      t.busyCycles = s.busyCycles :=
  finish_next { s with rspValid := false, phase := .busy c 0 } c

/-- Settles O18: the BUSY cycles are silent steps, after which one step is the command performed in no time. -/
theorem latencyChangesNoResponseOrState : Obligations.LatencyChangesNoResponseOrState := by
  unfold Obligations.LatencyChangesNoResponseOrState
  intro s p ps rest ls hwf hp hv hno hin hbusy
  obtain ⟨u, hsilent, hstep⟩ := silent_then_performs hwf hp hv hno hin hbusy
  obtain ⟨t, hperform, _⟩ := perform_next { s with inputs := rest, busyCycles := ls } (s.sampled p)
  calc s.cycles (ps.length + 1) = u.cycles 1 := cycles_of_silent hsilent 1
    _ = t.cycles 0 := cycles_succ 0 (hstep.trans hperform)
    _ = _ := hperform.symm

/-! ## WRITE, by its room (R70, R72, R81) -/

section room

variable {s : State} {n : Nat} (h0 : 0 < n) (hv : n ≤ s.cfg.vw)

include h0 hv

theorem execWrite_of_fits (hfit : n + s.size ≤ s.cap) :
    execWrite n s = .next ((s.append n s.operand).respond .ok 0) := by
  rcases execWrite_cases n s with ⟨hw, _⟩ | ⟨hneg, _⟩ | ⟨k, hk, _, _, ⟨_, he⟩ | ⟨hfull, _⟩ | ⟨hfull, _⟩⟩
  · omega
  · omega
  · obtain rfl : n = k := Int.ofNat_inj.mp hk
    exact he
  · omega
  · omega

theorem execWrite_of_grows (hfull : s.cap < n + s.size) (halloc : s.targetCap n / 8 ≤ s.cfg.maxBytes) :
    execWrite n s = .next (((s.growTo (s.targetCap n)).append n s.operand).respond .ok 0) := by
  rcases execWrite_cases n s with ⟨hw, _⟩ | ⟨hneg, _⟩ | ⟨k, hk, _, _, ⟨hfit, _⟩ | ⟨_, hmax, _⟩ | ⟨_, _, he⟩⟩
  · omega
  · omega
  · omega
  · obtain rfl : n = k := Int.ofNat_inj.mp hk
    omega
  · obtain rfl : n = k := Int.ofNat_inj.mp hk
    exact he

end room

/-! ## No command reads the environment -/

/-- A state with another host and other latencies. -/
def withEnvironment (s : State) (ins : List PortIn) (bc : List Nat) : State :=
  { s with inputs := ins, busyCycles := bc }

/-- A command runs alike whatever the host drives and whatever latencies come later. -/
theorem exec_withEnvironment {i : Instr} {s t : State} (ins : List PortIn) (bc : List Nat) (h : exec i s = .next t) :
    exec i (withEnvironment s ins bc) = .next (withEnvironment t ins bc) := by
  cases i with
  | write bits =>
    rcases execWrite_cases bits s with
      ⟨hw, he⟩ | ⟨hneg, he⟩ | ⟨n, rfl, h0, hv, ⟨hfit, he⟩ | ⟨hfull, hmax, he⟩ | ⟨hfull, halloc, he⟩⟩ <;>
      cases he.symm.trans h
    · exact execWrite_of_tooWide hw
    · exact execWrite_of_nonpos hneg
    · exact execWrite_of_fits h0 hv hfit
    · exact execWrite_beyond_maxBytes h0 hv hfull hmax
    · exact execWrite_of_grows h0 hv hfull halloc
  | read bits =>
    rcases execRead_cases bits s with ⟨hw, he⟩ | ⟨hneg, he⟩ | ⟨n, rfl, h0, hv, he⟩ <;> cases he.symm.trans h
    · exact execRead_of_tooWide hw
    · exact execRead_of_nonpos hneg
    · exact moved_of_pos h0 hv (execRead_cases n (withEnvironment s ins bc))
  | peek bits =>
    rcases execPeek_cases bits s with ⟨hw, he⟩ | ⟨hneg, he⟩ | ⟨n, rfl, h0, hv, he⟩ <;> cases he.symm.trans h
    · exact execPeek_of_tooWide hw
    · exact execPeek_of_nonpos hneg
    · exact moved_of_pos h0 hv (execPeek_cases n (withEnvironment s ins bc))
  | dbgByte index =>
    rcases execDbgByte_cases index s with ⟨hout, he⟩ | ⟨hin, he⟩ <;> cases he.symm.trans h
    · exact execDbgByte_out_of_range hout
    · exact execDbgByte_in_range hin
  | size => cases h; rfl
  | clear => cases h; rfl
  | dbgState => cases h; rfl

theorem perform_withEnvironment {s t : State} {c : Command} (ins : List PortIn) (bc : List Nat)
    (h : s.perform c = .next t) : (withEnvironment s ins bc).perform c = .next (withEnvironment t ins bc) := by
  rcases finish_cases { s with rspValid := false, phase := .busy c 0 } c with ⟨i, hdec, hrun⟩ | ⟨e, hill, hraise⟩
  · exact (finish_of_decode hdec).trans (exec_withEnvironment ins bc (hrun.symm.trans h))
  · cases hraise.symm.trans h
    exact finish_of_illegal _ ((illegalWord_iff_decode_error c.word).mpr ⟨e, hill⟩)

/-! ## Programs through the ports (R119, R121) -/

theorem runProgram_cons {s t : State} {c : Command} (cs : List Command) (h : s.perform c = .next t) :
    s.runProgram (c :: cs) = (t.runProgram cs).map (fun r => (t.response :: r.1, r.2)) := by
  simp only [State.runProgram, h]

theorem noReset_issue (c : Command) (left : Nat) : noReset (issue c left) = true := by
  simp [noReset, issue, PortIn.quiet]

theorem sampled_of_fits {s : State} {c : Command} (h : c.value < 2 ^ s.cfg.vw) :
    s.sampled { rst := false, cmdValid := true, cmdWord := c.word, cmdValue := c.value } = c := by
  simp only [State.sampled, State.onBus, Nat.mod_eq_of_lt h]

/-- One command of a program, issued to an idle block: its only response is seen at its end, and what the block does then
is the command performed in no time. -/
theorem watch_of_issue {s : State} {c : Command} {left : Nat} {rest : List PortIn} {ls : List Nat} (hwf : s.cfg.Wf)
    (hp : s.phase = .idle) (hc : c.value < 2 ^ s.cfg.vw) (hin : s.inputs = issue c left ++ rest)
    (hbusy : s.busyCycles = left :: ls) :
    ∃ t, State.perform { s with inputs := rest, busyCycles := ls } c = .next t ∧ t.phase = .idle ∧ t.cfg = s.cfg ∧
      t.inputs = rest ∧ t.busyCycles = ls ∧
      ∀ k, s.watch (left + (k + 1)) = (t.watch k).map (fun r => (t.response :: r.1, r.2)) := by
  have hlen : (List.replicate left PortIn.quiet).length = left := List.length_replicate
  obtain ⟨u, hsilent, hstep⟩ := silent_then_performs hwf hp rfl (noReset_issue c left) hin (by rw [hlen, hbusy])
  rw [hlen] at hsilent
  rw [sampled_of_fits hc] at hstep
  obtain ⟨t, hperform, hvalid, hidle, hcfg, hinputs, hlist⟩ :=
    perform_next { s with inputs := rest, busyCycles := ls } c
  refine ⟨t, hperform, hidle, hcfg, hinputs, hlist, fun k => ?_⟩
  rw [watch_of_silent hsilent, watch_succ k (hstep.trans hperform)]
  simp [hvalid]

theorem length_issueAll_cons (c : Command) (left : Nat) (cs : List (Command × Nat)) :
    (issueAll ((c, left) :: cs)).length = left + ((issueAll cs).length + 1) := by
  simp only [issueAll, issue, List.flatMap_cons, List.length_append, List.length_cons, List.length_replicate]
  omega

/-- Settles O19: by induction on the program, each command by `watch_of_issue`; neither the host's later cycles nor the
later latencies change what it does (`perform_withEnvironment`). -/
theorem programsThroughThePortsRunAsWritten : Obligations.ProgramsThroughThePortsRunAsWritten := by
  unfold Obligations.ProgramsThroughThePortsRunAsWritten
  intro s cs rest ls hwf hp hvals hin hbusy
  induction cs generalizing s with
  | nil =>
    have hs : s = withEnvironment s rest ls := by
      have hhost : s.inputs = rest := hin
      have hlist : s.busyCycles = ls := hbusy
      rw [← hhost, ← hlist]
      rfl
    exact congrArg (fun u : State => some (([] : List Response), u)) hs
  | cons c cs ih =>
    obtain ⟨c, left⟩ := c
    have hc : c.value < 2 ^ s.cfg.vw := hvals _ (List.mem_cons_self ..)
    have hissue : s.inputs = issue c left ++ (issueAll cs ++ rest) := by simp [hin, issueAll]
    obtain ⟨t, hperform, hidle, hcfg, hinputs, hlist, hwatch⟩ := watch_of_issue hwf hp hc hissue hbusy
    have hrest := ih t (hcfg ▸ hwf) hidle (fun d hd => hcfg ▸ hvals d (List.mem_cons_of_mem _ hd)) hinputs hlist
    rw [length_issueAll_cons, hwatch, hrest]
    exact (runProgram_cons _ (perform_withEnvironment rest ls hperform)).symm

end Sys2Proof.Proofs

/-! Proofs of the family "other", part 3: fields of the stream, and the byte-wise forms of R82 and R86. -/

namespace Sys2Proof.Proofs

open Sys2Proof.Machine
open Sys2Proof.Laws

/-! ## Fields in two parts (R86) -/

/-- The field of `a + b` bits is the field of the first `a`, moved up, and the field of the next `b`. -/
theorem field_add (m : Memory) (cap p a b : Nat) :
    m.field cap p (a + b) = m.field cap p a * 2 ^ b + m.field cap ((p + a) % cap) b := by
  induction b with
  | zero => simp
  | succ b ih =>
    have hpos : ((p + a) % cap + b) % cap = (p + (a + b)) % cap := by rw [Nat.mod_add_mod, Nat.add_assoc]
    rw [← Nat.add_assoc, field_succ, field_succ, ih, hpos, pow_succ]
    ring

/-- Settles O30: the split by `field_add`, the bound by `field_lt`. -/
theorem fieldsSplitAnywhere : Obligations.FieldsSplitAnywhere := by
  unfold Obligations.FieldsSplitAnywhere
  exact fun m cap p a b => ⟨field_add m cap p a b, field_lt m cap p a⟩

/-! ## Byte-aligned positions (R33) -/

section alignment

variable {cap : Nat} (h8 : cap % 8 = 0)

include h8

/-- A position that starts a byte wraps with the bytes. -/
theorem eight_mul_mod (a : Nat) : 8 * a % cap = 8 * (a % (cap / 8)) := by
  have hcap : cap = 8 * (cap / 8) := by omega
  conv_lhs => rw [hcap]
  exact Nat.mul_mod_mul_left 8 a (cap / 8)

/-- The position after the rest of its byte starts the next one. -/
theorem next_byte_start (p : Nat) : (p + (8 - p % 8)) % cap = 8 * ((p / 8 + 1) % (cap / 8)) := by
  have hnext : p + (8 - p % 8) = 8 * (p / 8 + 1) := by omega
  rw [hnext, eight_mul_mod h8]

/-- `k` bytes after the start of byte `b` comes the start of byte `b + k`. -/
theorem byte_start_add (b k : Nat) :
    (8 * (b % (cap / 8)) + 8 * k) % cap = 8 * ((b + k) % (cap / 8)) := by
  rw [← Nat.mul_add, eight_mul_mod h8, Nat.mod_add_mod]

theorem byte_start_lt (hcap : 0 < cap) (b : Nat) : 8 * (b % (cap / 8)) < cap := by
  have : b % (cap / 8) < cap / 8 := Nat.mod_lt _ (by omega)
  omega

end alignment

/-! ## The byte-wise read (R86) -/

/-- A field inside one byte is a slice of the byte. -/
theorem field_within_byte (m : Memory) {cap p w : Nat} (h8 : cap % 8 = 0) (hp : p < cap) (hw : p % 8 + w ≤ 8) :
    m.field cap p w = (m.read (p / 8)).toNat / 2 ^ (8 - p % 8 - w) % 2 ^ w := by
  induction w with
  | zero => simp [Nat.mod_one]
  | succ w ih =>
    have hpos : (p + w) % cap = p + w := Nat.mod_eq_of_lt (by omega)
    have hbit : m.sbit (p + w) = (m.read (p / 8)).toNat.testBit (8 - p % 8 - (w + 1)) := by
      have hbyte : (p + w) / 8 = p / 8 := by omega
      have hoffset : 7 - (p + w) % 8 = 8 - p % 8 - (w + 1) := by omega
      rw [Memory.sbit, byteBit_eq_testBit, hbyte, hoffset]
    have hexp : 8 - p % 8 - w = 8 - p % 8 - (w + 1) + 1 := by omega
    rw [field_succ, ih (by omega), hpos, hbit, hexp, pow_succ, ← Nat.div_div_eq_div_mul, Nat.toNat_testBit,
      pow_succ', Nat.mod_mul]
    omega

/-- The full byte at a byte-aligned position. -/
theorem field_byte (m : Memory) {cap : Nat} (h8 : cap % 8 = 0) (hcap : 0 < cap) (b : Nat) :
    m.field cap (8 * (b % (cap / 8))) 8 = (m.read (b % (cap / 8))).toNat := by
  have hlt := (m.read (b % (cap / 8))).isLt
  rw [field_within_byte m h8 (byte_start_lt h8 hcap b) (by omega)]
  simp only [Nat.mul_mod_right, Nat.mul_div_cancel_left _ (by decide : 0 < 8)]
  omega

theorem middlePart_succ (m : Memory) (nb b0 count : Nat) :
    middlePart m nb b0 (count + 1) =
      middlePart m nb b0 count * 2 ^ 8 + (m.read ((b0 + (count + 1)) % nb)).toNat := by
  have hterm : ∀ i ∈ List.range count, (m.read ((b0 + (i + 1)) % nb)).toNat * 2 ^ (8 * (count + 1 - (i + 1))) =
      (m.read ((b0 + (i + 1)) % nb)).toNat * 2 ^ (8 * (count - (i + 1))) * 2 ^ 8 := by
    intro i hi
    have hi : i < count := List.mem_range.1 hi
    rw [Nat.mul_assoc, ← pow_add]
    congr 2
    omega
  simp only [middlePart, List.range_succ, List.map_append, List.sum_append, List.map_congr_left hterm,
    List.sum_map_mul_right]
  simp

/-- The middle part is the field of its whole bytes. -/
theorem field_middle (m : Memory) {cap : Nat} (h8 : cap % 8 = 0) (hcap : 0 < cap) (b0 count : Nat) :
    m.field cap (8 * ((b0 + 1) % (cap / 8))) (8 * count) = middlePart m (cap / 8) b0 count := by
  induction count with
  | zero => rfl
  | succ count ih =>
    rw [Nat.mul_succ, field_add, ih, byte_start_add h8, field_byte m h8 hcap, middlePart_succ, Nat.add_assoc,
      Nat.add_comm 1 count]

/-- The trailing part is the field of the high bits of its byte. -/
theorem field_trailing (m : Memory) {cap tw : Nat} (h8 : cap % 8 = 0) (hcap : 0 < cap) (htw : tw ≤ 8) (b : Nat) :
    m.field cap (8 * (b % (cap / 8))) tw = (m.read (b % (cap / 8))).toNat / 2 ^ (8 - tw) := by
  rw [field_within_byte m h8 (byte_start_lt h8 hcap b) (by omega), Nat.mul_mod_right,
    Nat.mul_div_cancel_left _ (by decide : 0 < 8), Nat.sub_zero]
  apply Nat.mod_eq_of_lt
  rw [Nat.div_lt_iff_lt_mul (Nat.two_pow_pos _), ← pow_add, Nat.add_sub_cancel' htw]
  exact (m.read (b % (cap / 8))).isLt

/-- The leading part is the field of the bits from the cursor on in its byte. -/
theorem field_leading (m : Memory) {cap p L : Nat} (h8 : cap % 8 = 0) (hp : p < cap) (hL : L ≤ 8 - p % 8) :
    m.field cap p L = leadingPart (m.read (p / 8)) (8 - p % 8) L :=
  field_within_byte m h8 hp (by omega)

/-- Settles O31: a field that ends in its first byte is its leading part; any other one splits there, and again before
its trailing part. -/
theorem bytewiseReadIsTheField : Obligations.BytewiseReadIsTheField := by
  unfold Obligations.BytewiseReadIsTheField
  intro m cap p n hcap h8 hp _
  simp only [Memory.fieldBytes]
  rcases Nat.le_total n (8 - p % 8) with hshort | hlong
  · have hlt := (m.read ((p / 8 + 0 + 1) % (cap / 8))).isLt
    rw [Nat.min_eq_right hshort, Nat.sub_self, Nat.zero_div, Nat.zero_mod, field_leading m h8 hp hshort]
    simp [Nat.div_eq_of_lt hlt, middlePart]
  · rw [Nat.min_eq_left hlong]
    generalize hcount : (n - (8 - p % 8)) / 8 = count
    generalize htw : (n - (8 - p % 8)) % 8 = tw
    have hn : n = 8 - p % 8 + (8 * count + tw) := by omega
    rw [hn, field_add, next_byte_start h8, field_add, byte_start_add h8, field_leading m h8 hp le_rfl,
      field_middle m h8 hcap, field_trailing m h8 hcap (by omega), Nat.add_comm tw, Nat.add_assoc (p / 8) count,
      Nat.add_assoc (p / 8) 1, Nat.add_comm 1 count]
    ring

/-! ## A field written in two parts (R81) -/

/-- Writing `a + b` bits is writing the first `a`, then the next `b`. -/
theorem setField_add (m : Memory) (cap p a b v : Nat) :
    m.setField cap p (a + b) v = (m.setField cap p a (v / 2 ^ b)).setField cap ((p + a) % cap) b v := by
  simp only [Memory.setField, List.range_add, List.foldl_append, List.foldl_map]
  congr 1
  · funext m i
    rw [Nat.mod_add_mod, Nat.add_assoc]
    congr 2
    omega
  · refine List.foldl_ext _ _ _ fun m i hi => ?_
    have hi : i < a := List.mem_range.1 hi
    rw [Nat.testBit_div_two_pow]
    congr 2
    omega

theorem setField_zero (m : Memory) (cap p v : Nat) : m.setField cap p 0 v = m := rfl

/-- Only the low bits of the value are written. -/
theorem setField_mod_two_pow (m : Memory) (cap p n v : Nat) :
    m.setField cap p n (v % 2 ^ n) = m.setField cap p n v := by
  refine List.foldl_ext _ _ _ fun m i hi => ?_
  have hi : n - 1 - i < n := by have := List.mem_range.1 hi; omega
  rw [Nat.testBit_mod_two_pow, decide_eq_true hi, Bool.true_and]

/-! ## The byte-wise write (R82) -/

/-- A byte with `w` of its bits, the lowest of weight `2^c`, replaced by a value: the mask-then-or of R82. -/
def splice (x : Byte) (w c d : Nat) : Byte :=
  byteOf (x.toNat / 2 ^ (w + c) * 2 ^ (w + c) + d * 2 ^ c + x.toNat % 2 ^ c)

theorem byteBit_splice (x : Byte) {w c d o : Nat} (hd : d < 2 ^ w) (ho : o < 8) :
    byteBit (splice x w c d) o =
      if c ≤ 7 - o ∧ 7 - o < c + w then d.testBit (7 - o - c) else byteBit x o := by
  have hlow : x.toNat % 2 ^ c < 2 ^ c := Nat.mod_lt _ (Nat.two_pow_pos c)
  have hmid : 2 ^ c * d + x.toNat % 2 ^ c < 2 ^ (w + c) := by
    have : 2 ^ c * (d + 1) ≤ 2 ^ c * 2 ^ w := Nat.mul_le_mul_left _ hd
    rw [Nat.mul_succ, ← pow_add, Nat.add_comm c w] at this
    omega
  have hsum : x.toNat / 2 ^ (w + c) * 2 ^ (w + c) + d * 2 ^ c + x.toNat % 2 ^ c =
      2 ^ (w + c) * (x.toNat / 2 ^ (w + c)) + (2 ^ c * d + x.toNat % 2 ^ c) := by ring
  rw [splice, byteBit_byteOf _ ho, hsum, Nat.testBit_two_pow_mul_add _ hmid, Nat.testBit_two_pow_mul_add _ hlow,
    byteBit_eq_testBit, Nat.testBit_div_two_pow, Nat.testBit_mod_two_pow]
  split_ifs with h1 h2 h3 h4 h5
  · omega
  · simp [h2]
  · rfl
  · omega
  · omega
  · congr 1
    omega

/-- A byte written with `w` bits from the offset of `p` on replaced, bit by bit. -/
theorem sbit_write_splice {m : Memory} {p w d : Nat} (hwf : m.wf = true) (hw : p % 8 + w ≤ 8) (hd : d < 2 ^ w)
    (q : Nat) :
    (m.write (p / 8) (splice (m.read (p / 8)) w (8 - p % 8 - w) d)).sbit q =
      if q / 8 = p / 8 ∧ p % 8 ≤ q % 8 ∧ q % 8 < p % 8 + w then d.testBit (w - 1 - (q % 8 - p % 8))
      else m.sbit q := by
  have hq : q % 8 < 8 := Nat.mod_lt _ (by decide)
  by_cases hb : q / 8 = p / 8
  · simp only [Memory.sbit, read_write _ _ _ hwf, hb, if_true, byteBit_splice _ hd hq, true_and]
    split_ifs with h1 h2 h2
    · congr 1
      omega
    · omega
    · omega
    · rfl
  · simp [Memory.sbit, read_write _ _ _ hwf, hb]

/-- A field write inside one byte is one byte write. -/
theorem setField_within_byte {m : Memory} {cap p w d : Nat} (hwf : m.wf = true) (h8 : cap % 8 = 0) (hp : p < cap)
    (hw : p % 8 + w ≤ 8) (hd : d < 2 ^ w) :
    m.setField cap p w d = m.write (p / 8) (splice (m.read (p / 8)) w (8 - p % 8 - w) d) := by
  refine memory_ext_sbit (setField_wf _ _ _ _ hwf) (write_wf _ _ hwf) fun q => ?_
  have hpos : ∀ i, i < w → (p + i) % cap = p + i := fun i hi => Nat.mod_eq_of_lt (by omega)
  rw [sbit_write_splice hwf hw hd]
  by_cases hin : q / 8 = p / 8 ∧ p % 8 ≤ q % 8 ∧ q % 8 < p % 8 + w
  · have hi : q % 8 - p % 8 < w := by omega
    have hqi : q = (p + (q % 8 - p % 8)) % cap := by rw [hpos _ hi]; omega
    rw [if_pos hin]
    conv_lhs => rw [hqi]
    exact sbit_setField d hwf (by omega) hi
  · rw [if_neg hin]
    refine sbit_setField_other d hwf fun i hi hqi => hin ?_
    rw [hpos i hi] at hqi
    omega

/-- The field write of at most eight bits at a byte-aligned position. -/
theorem setField_byte {m : Memory} {cap w v : Nat} (hwf : m.wf = true) (h8 : cap % 8 = 0) (hcap : 0 < cap)
    (hw : w ≤ 8) (b : Nat) :
    m.setField cap (8 * (b % (cap / 8))) w v =
      m.write (b % (cap / 8)) (splice (m.read (b % (cap / 8))) w (8 - w) (v % 2 ^ w)) := by
  rw [← setField_mod_two_pow, setField_within_byte hwf h8 (byte_start_lt h8 hcap b) (by omega)
    (Nat.mod_lt _ (Nat.two_pow_pos w)), Nat.mul_mod_right, Nat.mul_div_cancel_left _ (by decide : 0 < 8),
    Nat.sub_zero]

/-- The leading byte of R82 is its byte with the field's first `L` bits spliced in. -/
theorem leadingByte_eq_splice (x : Byte) {off L : Nat} (hL : L ≤ off) (bits v : Nat) :
    leadingByte x off L bits v = splice x L (off - L) (v / 2 ^ (bits - L)) := by
  rw [leadingByte, splice, Nat.add_sub_cancel' hL]

/-- A middle byte of R82 replaces all eight bits. -/
theorem byteOf_eq_splice (x : Byte) (v : Nat) : byteOf (v % 256) = splice x 8 (8 - 8) (v % 2 ^ 8) := by
  have hx := Nat.div_eq_of_lt x.isLt
  simp [splice, hx, Nat.mod_one]

/-- The middle bytes of R82 are the field write of their bits. -/
theorem middleBytes_eq_setField {m : Memory} {cap : Nat} (h8 : cap % 8 = 0) (hcap : 0 < cap) (b0 v : Nat)
    {count rest : Nat} (hrest : 8 * count ≤ rest) (j : Nat) (hwf : m.wf = true) :
    middleBytes m (cap / 8) b0 v count rest j =
      m.setField cap (8 * ((b0 + j) % (cap / 8))) (8 * count) (v / 2 ^ (rest - 8 * count)) := by
  induction count generalizing m rest j with
  | zero => rfl
  | succ count ih =>
    have hbyte := setField_byte (v := v / 2 ^ (rest - 8)) hwf h8 hcap le_rfl (b0 + j)
    rw [← byteOf_eq_splice] at hbyte
    have hwidth : 8 * (count + 1) = 8 + 8 * count := by omega
    have hvalue : v / 2 ^ (rest - (8 + 8 * count)) / 2 ^ (8 * count) = v / 2 ^ (rest - 8) := by
      rw [Nat.div_div_eq_div_mul, ← pow_add]
      congr 2
      omega
    have hnext : (8 * ((b0 + j) % (cap / 8)) + 8) % cap = 8 * ((b0 + (j + 1)) % (cap / 8)) := byte_start_add h8 _ 1
    rw [middleBytes, ih (by omega) (j + 1) (write_wf _ _ hwf), hwidth, setField_add, hvalue, hbyte, hnext,
      Nat.sub_sub]

/-- The trailing byte of R82 is the field write of its bits. -/
theorem trailingByte_eq_setField {m : Memory} {cap rest : Nat} (h8 : cap % 8 = 0) (hcap : 0 < cap) (hr : rest ≤ 8)
    (b v : Nat) (hwf : m.wf = true) :
    trailingByte m (b % (cap / 8)) rest v = m.setField cap (8 * (b % (cap / 8))) rest v := by
  unfold trailingByte
  split_ifs with h0
  · rw [h0, setField_zero]
  · have hx := Nat.div_eq_of_lt (m.read (b % (cap / 8))).isLt
    rw [setField_byte hwf h8 hcap hr, splice, Nat.add_sub_cancel' hr, hx, Nat.zero_mul, Nat.zero_add]

/-- Settles O37: the three parts of R82 are field writes of their bits, and a field write splits where they meet
(`setField_add`). -/
theorem bytewiseWriteIsTheFieldWrite : Obligations.BytewiseWriteIsTheFieldWrite := by
  unfold Obligations.BytewiseWriteIsTheFieldWrite
  intro m cap p n v hwf hcap h8 hp _ _ hv
  have hleading : ∀ L, L ≤ 8 - p % 8 → L ≤ n →
      m.write (p / 8) (leadingByte (m.read (p / 8)) (8 - p % 8) L n v) = m.setField cap p L (v / 2 ^ (n - L)) := by
    intro L hoff hn
    have hd : v / 2 ^ (n - L) < 2 ^ L := by
      rwa [Nat.div_lt_iff_lt_mul (Nat.two_pow_pos _), ← pow_add, Nat.add_sub_cancel' hn]
    rw [leadingByte_eq_splice _ hoff, setField_within_byte hwf h8 hp (by omega) hd]
  simp only [Memory.setFieldBytes]
  rcases Nat.le_total n (8 - p % 8) with hshort | hlong
  · rw [Nat.min_eq_right hshort, hleading n hshort le_rfl]
    simp [middleBytes, trailingByte]
  · rw [Nat.min_eq_left hlong, hleading _ le_rfl hlong]
    generalize hcount : (n - (8 - p % 8)) / 8 = count
    generalize htw : (n - (8 - p % 8)) % 8 = tw
    have hn : n = 8 - p % 8 + (8 * count + tw) := by omega
    have hrest : n - (8 - p % 8) = 8 * count + tw := by omega
    have hwf' := setField_wf cap p (8 - p % 8) (v / 2 ^ (8 * count + tw)) hwf
    rw [hrest, middleBytes_eq_setField h8 hcap _ _ (by omega) 1 hwf',
      trailingByte_eq_setField h8 hcap (by omega) _ _ (setField_wf _ _ _ _ hwf'), hn, setField_add,
      next_byte_start h8, setField_add, byte_start_add h8, Nat.add_sub_cancel_left, Nat.add_assoc (p / 8) 1,
      Nat.add_comm 1 count]

end Sys2Proof.Proofs

/-! Proofs of the family "other", part 4: growth (R70 to R80). -/

namespace Sys2Proof.Proofs

open Sys2Proof.Machine
open Sys2Proof.Laws

/-! ## What growth asks of a state -/

/-- What the invariants say of the capacity and the occupied size alone. Growth keeps it also where the new capacity is
above MAX_BYTES, as an intermediate one of R79 may be. -/
structure Shaped (s : State) : Prop where
  capPos : 0 < s.cap
  capAligned : s.cap % 8 = 0
  sizeBound : s.size ≤ s.cap

theorem shaped_of_inv {s : State} (h : s.Inv) : Shaped s :=
  ⟨cap_pos h, cap_mod_eight h, h.sizeBound⟩

section shaped

variable {s : State} {newCap : Nat} (h : Shaped s) (hc : 2 * s.cap ≤ newCap)

include h

/-- R73: the `i`-th occupied bit stands `i` after the offset. -/
theorem sbit_growTo_occupied (newCap : Nat) {i : Nat} (hi : i < s.size) :
    (s.growTo newCap).store.sbit (s.rc % 8 + i) = s.store.sbit ((s.rc + i) % s.cap) := by
  rw [sbit_growTo s newCap _ h.capAligned, if_pos (by omega), Nat.add_sub_cancel_left]

/-- R75, R76: nothing else is left in the new storage. -/
theorem sbit_growTo_unoccupied (newCap : Nat) {p : Nat} (hp : p < s.rc % 8 ∨ s.rc % 8 + s.size ≤ p) :
    (s.growTo newCap).store.sbit p = false := by
  rw [sbit_growTo s newCap p h.capAligned, if_neg (by omega)]

include hc

/-- Twice the capacity holds the occupied bits and their offset in the first byte, and a bit more. -/
theorem offset_add_size_lt : s.rc % 8 + s.size < newCap := by
  obtain ⟨hpos, h8, hsize⟩ := h
  omega

theorem size_growTo : (s.growTo newCap).size = s.size :=
  growTo_size s (by have := offset_add_size_lt h hc; omega)

theorem contents_growTo : (s.growTo newCap).contents = s.contents := by
  simp only [State.contents, size_growTo h hc, growTo_rc, growTo_cap]
  refine List.map_congr_left fun i hi => ?_
  have hi : i < s.size := List.mem_range.1 hi
  have hlt := offset_add_size_lt h hc
  rw [Nat.mod_eq_of_lt (by omega : s.rc % 8 + i < newCap), sbit_growTo_occupied h newCap hi]

end shaped

/-- Settles O39: the three laws above, under the invariants. -/
theorem growthPreservesOccupiedBits : Obligations.GrowthPreservesOccupiedBits := by
  unfold Obligations.GrowthPreservesOccupiedBits
  intro s newCap hinv hc
  have h := shaped_of_inv hinv
  exact ⟨fun _ => sbit_growTo_occupied h newCap, size_growTo h hc, contents_growTo h hc⟩

/-- A byte whose eight stream bits are 0 reads blank. -/
theorem read_eq_blank {m : Memory} {j : Nat} (h : ∀ o, o < 8 → m.sbit (8 * j + o) = false) : m.read j = blankByte := by
  refine byte_ext fun o ho => ?_
  have hbyte : (8 * j + o) / 8 = j := by omega
  have hoffset : (8 * j + o) % 8 = o := by omega
  have hbit := h o ho
  rwa [Memory.sbit, hbyte, hoffset, ← byteBit_blank o] at hbit

/-- Settles O40: an uncopied byte stands after every occupied bit, so all its bits are unoccupied. -/
theorem growthZeroesEverythingElse : Obligations.GrowthZeroesEverythingElse := by
  unfold Obligations.GrowthZeroesEverythingElse
  intro s newCap hinv _
  have h := shaped_of_inv hinv
  refine ⟨fun p => sbit_growTo_unoccupied h newCap, fun j hj => ?_⟩
  exact read_eq_blank fun o _ => sbit_growTo_unoccupied h newCap (by omega)

/-! ## Stepwise doubling (R79) -/

theorem growTo_eq (s : State) (newCap : Nat) :
    s.growTo newCap = { s with
      cap := newCap, rc := s.rc % 8, wc := s.size + s.rc % 8, full := false, store := (s.growTo newCap).store } := rfl

theorem shaped_growTo {s : State} {newCap : Nat} (h : Shaped s) (hc : 2 * s.cap ≤ newCap) (h8 : newCap % 8 = 0) :
    Shaped (s.growTo newCap) := by
  have hlt := offset_add_size_lt h hc
  refine ⟨?_, h8, ?_⟩
  · simp only [growTo_cap]
    omega
  · rw [size_growTo h hc, growTo_cap]
    omega

/-- The second growth finds every occupied bit where the first one put it, and zeroes what is zero already. -/
theorem store_growTo_growTo {s : State} {mid newCap : Nat} (h : Shaped s) (hmid : 2 * s.cap ≤ mid)
    (h8 : mid % 8 = 0) : ((s.growTo mid).growTo newCap).store = (s.growTo newCap).store := by
  refine memory_ext_sbit (growTo_storeWf _ _) (growTo_storeWf _ _) fun p => ?_
  have hlt := offset_add_size_lt h hmid
  have h' := shaped_growTo h hmid h8
  have hrc : (s.growTo mid).rc % 8 = s.rc % 8 := Nat.mod_mod _ _
  have hsize := size_growTo h hmid
  by_cases hin : s.rc % 8 ≤ p ∧ p < s.rc % 8 + s.size
  · obtain ⟨i, rfl⟩ : ∃ i, p = s.rc % 8 + i := ⟨p - s.rc % 8, by omega⟩
    have hi : i < s.size := by omega
    have hagain := sbit_growTo_occupied h' newCap (hsize.symm ▸ hi)
    rw [hrc, growTo_rc, growTo_cap, Nat.mod_eq_of_lt (by omega : s.rc % 8 + i < mid), sbit_growTo_occupied h mid hi] at hagain
    rw [hagain, sbit_growTo_occupied h newCap hi]
  · rw [sbit_growTo_unoccupied h newCap (by omega), sbit_growTo_unoccupied h' newCap (by rw [hrc, hsize]; omega)]

theorem growTo_growTo {s : State} {mid : Nat} (newCap : Nat) (h : Shaped s) (hmid : 2 * s.cap ≤ mid)
    (h8 : mid % 8 = 0) : (s.growTo mid).growTo newCap = s.growTo newCap := by
  have hrc : (s.growTo mid).rc % 8 = s.rc % 8 := Nat.mod_mod _ _
  rw [growTo_eq (s.growTo mid), growTo_eq s newCap, store_growTo_growTo h hmid h8, hrc, size_growTo h hmid]
  rfl

/-- R79: `m + 1` doublings are one growth. -/
theorem growStepwise_eq_growTo {s : State} (m : Nat) (h : Shaped s) :
    s.growStepwise (m + 1) = s.growTo (s.cap * 2 ^ (m + 1)) := by
  induction m generalizing s with
  | zero => rw [State.growStepwise, State.growStepwise, Nat.zero_add, pow_one, Nat.mul_comm]
  | succ m ih =>
    have h8 : 2 * s.cap % 8 = 0 := by have := h.capAligned; omega
    rw [State.growStepwise, ih (shaped_growTo h le_rfl h8), growTo_cap, growTo_growTo _ h le_rfl h8,
      pow_succ 2 (m + 1)]
    congr 1
    ring

/-- Settles O41: by `growStepwise_eq_growTo`, with at least one doubling. -/
theorem stepwiseDoublingIsOneGrowth : Obligations.StepwiseDoublingIsOneGrowth := by
  unfold Obligations.StepwiseDoublingIsOneGrowth
  intro s m hinv hm
  obtain ⟨m, rfl⟩ : ∃ k, m = k + 1 := ⟨m - 1, by omega⟩
  exact growStepwise_eq_growTo m (shaped_of_inv hinv)

/-! ## The reference FSM (R80) -/

section fsm

variable (s : State) (n : Nat)

/-- Some number of actions of the FSM leads from one phase to another. -/
def Reaches (g g' : GrowthPhase) : Prop := ∃ k, s.growthRun n k g = g'

theorem growthRun_add (a b : Nat) (g : GrowthPhase) :
    s.growthRun n (a + b) g = s.growthRun n b (s.growthRun n a g) := by
  induction a generalizing g with
  | zero => rw [Nat.zero_add]; rfl
  | succ a ih => rw [Nat.succ_add, State.growthRun, ih, State.growthRun]

variable {s n} {g g' g'' : GrowthPhase}

theorem Reaches.trans (h : Reaches s n g g') (h' : Reaches s n g' g'') : Reaches s n g g'' := by
  obtain ⟨a, rfl⟩ := h
  obtain ⟨b, rfl⟩ := h'
  exact ⟨a + b, growthRun_add s n a b g⟩

theorem reaches_of_action (h : s.growthAction n g = g') : Reaches s n g g' := ⟨1, h⟩

/-- A phase its action keeps is never left. -/
theorem growthRun_of_fixed (h : s.growthAction n g = g) (k : Nat) : s.growthRun n k g = g := by
  induction k with
  | zero => rfl
  | succ k ih => rw [State.growthRun, h, ih]

theorem eventually_of_reaches (h : Reaches s n g g') (hfixed : s.growthAction n g' = g') :
    ∃ k, ∀ k', k ≤ k' → s.growthRun n k' g = g' := by
  obtain ⟨k, hk⟩ := h
  refine ⟨k, fun k' hle => ?_⟩
  rw [← Nat.add_sub_cancel' hle, growthRun_add, hk, growthRun_of_fixed hfixed]

/-- G_SIZE makes the doublings of the target's loop. -/
theorem reaches_alloc {fuel cap : Nat} (hf : 0 < fuel) (h : n + s.size ≤ cap * 2 ^ fuel) :
    Reaches s n (.sizing (2 * cap)) (.alloc (doubleUntil fuel cap (n + s.size))) := by
  induction fuel generalizing cap with
  | zero => omega
  | succ fuel ih =>
    by_cases hroom : n + s.size ≤ 2 * cap
    · refine reaches_of_action ?_
      rw [State.growthAction, if_neg (by omega), doubleUntil, if_pos hroom]
    · have hfuel : 0 < fuel := by
        rcases Nat.eq_zero_or_pos fuel with rfl | hpos
        · rw [Nat.zero_add, pow_one] at h
          omega
        · exact hpos
      have hpow : n + s.size ≤ 2 * cap * 2 ^ fuel := by
        rw [pow_succ] at h
        linarith
      have hdouble : s.growthAction n (.sizing (2 * cap)) = .sizing (2 * (2 * cap)) := by
        rw [State.growthAction, if_pos (by omega)]
      rw [doubleUntil, if_neg hroom]
      exact (reaches_of_action hdouble).trans (ih hfuel hpow)

/-- One more byte of a tabulated storage is one byte write. -/
theorem tabulate_succ (j : Nat) (f : Nat → Byte) :
    Memory.tabulate (j + 1) f = (Memory.tabulate j f).write j (f j) := by
  refine memory_ext (tabulate_wf _ _) (write_wf _ _ (tabulate_wf _ _)) fun i => ?_
  rw [read_write _ _ _ (tabulate_wf _ _), read_tabulate, read_tabulate]
  by_cases hij : i = j
  · simp [hij]
  · have : i < j + 1 ↔ i < j := by omega
    simp [hij, this]

/-- G_COPY fills NEW byte by byte. -/
theorem reaches_copied (newCap : Nat) {j : Nat} (hj : j ≤ s.copiedBytes) :
    Reaches s n (.copy newCap 0 []) (.copy newCap j (Memory.tabulate j s.copiedByte)) := by
  induction j with
  | zero => exact ⟨0, rfl⟩
  | succ j ih =>
    refine (ih (by omega)).trans (reaches_of_action ?_)
    rw [State.growthAction, if_pos (by omega), tabulate_succ]

/-- From an allocation that is possible the FSM goes on to the grown state. -/
theorem reaches_grown {newCap : Nat} (h : s.cannotAllocate newCap = false) :
    Reaches s n (.alloc newCap) (.fieldWrite (s.growTo newCap)) := by
  have halloc : s.growthAction n (.alloc newCap) = .copy newCap 0 [] := by
    simp [State.growthAction, h]
  have hcopied : s.growthAction n (.copy newCap s.copiedBytes s.relocated) = .zero newCap s.relocated := by
    simp [State.growthAction]
  exact (reaches_of_action halloc).trans <| (reaches_copied newCap le_rfl).trans <|
    (reaches_of_action hcopied).trans <| (reaches_of_action rfl).trans (reaches_of_action rfl)

theorem reaches_failed {newCap : Nat} (h : s.cannotAllocate newCap = true) :
    Reaches s n (.alloc newCap) .failed := by
  refine reaches_of_action ?_
  simp [State.growthAction, h]

/-- A WRITE that does not fit comes to G_ALLOC with the target of R71. -/
theorem reaches_alloc_target (hc : 0 < s.cap) (hfull : s.cap < n + s.size) :
    Reaches s n .check (.alloc (s.targetCap n)) := by
  have hcheck : s.growthAction n .check = .sizing (2 * s.cap) := by
    rw [State.growthAction, if_neg (by omega)]
  exact (reaches_of_action hcheck).trans (reaches_alloc (by omega) (le_mul_two_pow_self hc (n + s.size)))

end fsm

/-- Settles O42: each exit is reached by the phases above, and an exit is kept. -/
theorem referenceFsmRefinesGrowth : Obligations.ReferenceFsmRefinesGrowth := by
  unfold Obligations.ReferenceFsmRefinesGrowth
  intro s n hinv _ _
  by_cases hfit : n + s.size ≤ s.cap
  · rw [if_pos hfit]
    exact eventually_of_reaches (reaches_of_action (if_pos hfit)) rfl
  · rw [if_neg hfit]
    have htarget := reaches_alloc_target (n := n) (cap_pos hinv) (by omega)
    by_cases hmax : s.cfg.maxBytes < s.targetCap n / 8
    · rw [if_pos hmax]
      exact eventually_of_reaches (htarget.trans (reaches_failed (decide_eq_true hmax))) rfl
    · rw [if_neg hmax]
      exact eventually_of_reaches (htarget.trans (reaches_grown (decide_eq_false hmax))) rfl

end Sys2Proof.Proofs

/-! Proofs of the family "other", part 5: single commands (R13, R40, R58, R67, R68, R92) and their errors (R94 to
R98). -/

namespace Sys2Proof.Proofs

open Sys2Proof.Machine
open Sys2Proof.Laws

/-! ## What every command does (R13, R117) -/

/-- No effect touches the configuration or the model's environment fields. -/
theorem environment_of_effect {i : Instr} {s b : State} (h : Effect i s b) :
    b.cfg = s.cfg ∧ b.inputs = s.inputs ∧ b.busyCycles = s.busyCycles := by
  cases h with
  | unchanged => exact ⟨rfl, rfl, rfl⟩
  | advanced n => exact ⟨advance_cfg s n, advance_inputs s n, advance_busyCycles s n⟩
  | cleared => exact ⟨cleared_cfg s, cleared_inputs s, cleared_busyCycles s⟩
  | appended n => exact ⟨append_cfg .., append_inputs .., append_busyCycles ..⟩
  | grown n => exact ⟨append_cfg .., append_inputs .., append_busyCycles ..⟩

/-- Settles O54: a command ends in one response after one of the effects, none of which touches those fields. -/
theorem everyCommandRespondsOnce : Obligations.EveryCommandRespondsOnce := by
  unfold Obligations.EveryCommandRespondsOnce
  intro i s
  obtain ⟨b, st, r, heff, hexec, _⟩ := exec_effect i s
  have henv := environment_of_effect heff
  exact ⟨_, hexec, respond_rspValid .., respond_phase .., henv⟩

/-- Settles O52: of the effects only the two of WRITE touch STORE, CAP or WC. -/
theorem onlyWriteTouchesStorage : Obligations.OnlyWriteTouchesStorage := by
  unfold Obligations.OnlyWriteTouchesStorage
  intro i s t h hchange
  obtain ⟨b, st, r, heff, rfl, _⟩ := effect_of_exec h
  cases heff with
  | unchanged => simp at hchange
  | advanced n => simp at hchange
  | cleared => simp at hchange
  | appended n hi h0 hv => exact ⟨n, hi, by omega, by omega⟩
  | grown n hi h0 hv => exact ⟨n, hi, by omega, by omega⟩

/-- Settles O24: one lemma for the three commands that carry a count. -/
theorem countsUpToZeroAreNoOps : Obligations.CountsUpToZeroAreNoOps := by
  unfold Obligations.CountsUpToZeroAreNoOps
  exact fun _ _ hneg _ hi => exec_of_nonpos hneg hi

/-! ## What a command reads (R58) -/

/-- A command other than WRITE reads neither the command in progress nor the last response, and replaces both. -/
theorem exec_of_not_write {i : Instr} (hi : ∀ bits, i ≠ .write bits) (s : State) (p : Phase) (valid : Bool)
    (st : Status) (r : Nat) :
    exec i { s with phase := p, rspValid := valid, rspStatus := st, rspResult := r } = exec i s := by
  cases i with
  | write bits => exact absurd rfl (hi bits)
  | read bits => rfl
  | peek bits => rfl
  | size => rfl
  | clear => rfl
  | dbgByte index => rfl
  | dbgState => rfl

/-- R81: of the value only the low bits are stored. -/
theorem append_congr (s : State) {n v v' : Nat} (h : v % 2 ^ n = v' % 2 ^ n) : s.append n v = s.append n v' := by
  rw [State.append, State.append, h]

/-- WRITE as a function of the value alone: what it does to a state with a command in progress. -/
def writeValue (s : State) (n v : Nat) : State :=
  if s.mustGrow n then
    if s.cannotAllocate (s.targetCap n) then s.raise .errAlloc
    else ((s.growTo (s.targetCap n)).append n v).respond .ok 0
  else (s.append n v).respond .ok 0

theorem writeBits_of_busy (s : State) (c : Command) (left n : Nat) :
    State.writeBits { s with phase := .busy c left } n = writeValue s n c.value := rfl

theorem writeValue_congr (s : State) {n v v' : Nat} (h : v % 2 ^ n = v' % 2 ^ n) :
    writeValue s n v = writeValue s n v' := by
  rw [writeValue, writeValue, append_congr _ h, append_congr _ h]

/-- R58: WRITE reads the low bits of its value only. -/
theorem execWrite_congr_value (s : State) {c c' : Command} (left : Nat) {bits : Int}
    (h : c.value % 2 ^ bits.toNat = c'.value % 2 ^ bits.toNat) :
    execWrite bits { s with phase := .busy c left } = execWrite bits { s with phase := .busy c' left } := by
  simp only [execWrite, writeBits_of_busy, writeValue_congr s h]
  rfl

/-- Settles O25: WRITE reads the value's low bits, every other command none of it. -/
theorem onlyWriteReadsTheValueOperand : Obligations.OnlyWriteReadsTheValueOperand := by
  unfold Obligations.OnlyWriteReadsTheValueOperand
  rintro s c c' left i (hi | ⟨bits, rfl, hvalue⟩)
  · exact (exec_of_not_write hi s (.busy c left) _ _ _).trans (exec_of_not_write hi s (.busy c' left) _ _ _).symm
  · exact execWrite_congr_value s left hvalue

/-! ## Inspection (R40) -/

/-- PEEK, SIZE, DBG_BYTE and DBG_STATE end in a bare response. -/
theorem inspection_responds {i : Instr} {s t : State}
    (hi : (∃ bits, i = .peek bits) ∨ i = .size ∨ (∃ index, i = .dbgByte index) ∨ i = .dbgState)
    (h : exec i s = .next t) : (∀ bits, i ≠ .write bits) ∧ ∃ st r, t = s.respond st r := by
  obtain ⟨b, st, r, heff, rfl, _⟩ := effect_of_exec h
  rcases hi with ⟨bits, rfl⟩ | rfl | ⟨index, rfl⟩ | rfl
  all_goals
    cases heff with
    | unchanged => exact ⟨nofun, st, r, rfl⟩
    | advanced n hi => cases hi
    | cleared hi => cases hi
    | appended n hi => cases hi
    | grown n hi => cases hi

/-- Settles O53: a bare response changes nothing an inspection reads. -/
theorem inspectionIsIdempotent : Obligations.InspectionIsIdempotent := by
  unfold Obligations.InspectionIsIdempotent
  intro i s t hi h
  obtain ⟨hnowrite, st, r, rfl⟩ := inspection_responds hi h
  exact ⟨rfl, (exec_of_not_write hnowrite s ..).trans h⟩

/-- READ answers what PEEK answers (R88). -/
theorem read_answers_as_peek {bits : Int} {s t : State} (h : execPeek bits s = .next t) :
    ∃ u, execRead bits s = .next u ∧ u.response = t.response := by
  rcases execPeek_cases bits s with ⟨hw, he⟩ | ⟨hneg, he⟩ | ⟨n, rfl, h0, hv, he⟩ <;> cases he.symm.trans h
  · exact ⟨_, execRead_of_tooWide hw, rfl⟩
  · exact ⟨_, execRead_of_nonpos hneg, rfl⟩
  · exact ⟨_, moved_of_pos h0 hv (execRead_cases n s), rfl⟩

/-- Settles O29: PEEK is an inspection, so what follows it sees the state it found. -/
theorem peekForetellsRead : Obligations.PeekForetellsRead := by
  unfold Obligations.PeekForetellsRead
  intro s t bits h
  obtain ⟨hnowrite, st, r, rfl⟩ := inspection_responds (.inl ⟨bits, rfl⟩) h
  obtain ⟨u, hread, hresponse⟩ := read_answers_as_peek h
  exact ⟨(exec_of_not_write hnowrite s ..).trans h, respond_size .., respond_contents ..,
    u, (exec_of_not_write (i := .read bits) nofun s ..).trans hread, hresponse⟩

/-! ## SIZE and CLEAR (R22, R68) -/

/-- Settles O22: without FULL the size is a residue modulo CAP. -/
theorem sizeIsCapacityExactlyWhenFull : Obligations.SizeIsCapacityExactlyWhenFull := by
  unfold Obligations.SizeIsCapacityExactlyWhenFull
  intro s hinv
  cases hf : s.full with
  | true => exact iff_of_true (size_of_full hf) rfl
  | false =>
    have hlt : s.size < s.cap := size_of_not_full hf ▸ Nat.mod_lt _ (cap_pos hinv)
    exact iff_of_false hlt.ne Bool.false_ne_true

/-- R53, R55: opcode 5 with `Z28 = 0`. -/
theorem decode_clear_word : decode 0x50000000#32 = .ok .clear :=
  decode_of_eq_encode (by decide) rfl

/-- Settles O21: CLEAR is a response to `cleared`, which a second CLEAR keeps. -/
theorem clearEmptiesWithoutTouchingStorage : Obligations.ClearEmptiesWithoutTouchingStorage := by
  unfold Obligations.ClearEmptiesWithoutTouchingStorage
  exact ⟨decode_clear_word, fun s => ⟨_, exec_clear s, rfl, cleared_size s, rfl⟩⟩

/-! ## The debug view (R92) -/

theorem length_streamBits (b : Byte) : (streamBits b).length = 8 := by
  simp [streamBits]

theorem getElem?_streamBits (b : Byte) {o : Nat} (ho : o < 8) : (streamBits b)[o]? = some (byteBit b o) := by
  simp [streamBits, ho]

theorem getElem?_debugRows (s : State) {j : Nat} (hj : j < s.cap / 8) :
    s.debugRows[j]? = some (streamBits (s.store.read j)) := by
  simp [State.debugRows, State.storeBytes, hj]

/-- Settles O45: the marker's row is the byte of its position, and the place in it the offset of its bit (R34). -/
theorem debugRowsShowEveryStreamBit : Obligations.DebugRowsShowEveryStreamBit := by
  unfold Obligations.DebugRowsShowEveryStreamBit
  intro s p h8 hp
  have hrow : p / 8 < s.cap / 8 := by omega
  exact ⟨_, getElem?_debugRows s hrow, length_streamBits _, getElem?_streamBits _ (Nat.mod_lt p (by decide))⟩

/-! ## The errors and their causes (R94 to R98) -/

section causes

variable (s : State) (i : Instr)

/-- Why a command answers with a status: nothing for OK (R101), never an ILLEGAL word (R95), and for the errors of R96
to R98 their causes. -/
def Cause : Status → Prop
  | .ok => True
  | .errIllegal => False
  | .errWidth => ∃ bits : Int, (s.cfg.vw : Int) < bits ∧ (i = .write bits ∨ i = .read bits ∨ i = .peek bits)
  | .errRange => ∃ index, i = .dbgByte index ∧ s.cap / 8 ≤ index
  | .errAlloc =>
    ∃ n : Nat, i = .write n ∧ 0 < n ∧ n ≤ s.cfg.vw ∧ s.cap < n + s.size ∧ s.cfg.maxBytes < s.targetCap n / 8

variable {s i}

/-- Whatever a command answers, its cause is there. -/
theorem cause_of_exec {t : State} (h : exec i s = .next t) : Cause s i t.rspStatus := by
  cases i with
  | write bits =>
    rcases execWrite_cases bits s with
      ⟨hw, he⟩ | ⟨_, he⟩ | ⟨n, rfl, h0, hv, ⟨_, he⟩ | ⟨hfull, hmax, he⟩ | ⟨_, _, he⟩⟩ <;> cases he.symm.trans h
    · exact ⟨bits, hw, .inl rfl⟩
    · trivial
    · trivial
    · exact ⟨n, rfl, h0, hv, hfull, hmax⟩
    · trivial
  | read bits =>
    rcases execRead_cases bits s with ⟨hw, he⟩ | ⟨_, he⟩ | ⟨n, rfl, h0, hv, he⟩ <;> cases he.symm.trans h
    · exact ⟨bits, hw, .inr (.inl rfl)⟩
    · trivial
    · trivial
  | peek bits =>
    rcases execPeek_cases bits s with ⟨hw, he⟩ | ⟨_, he⟩ | ⟨n, rfl, h0, hv, he⟩ <;> cases he.symm.trans h
    · exact ⟨bits, hw, .inr (.inr rfl)⟩
    · trivial
    · trivial
  | dbgByte index =>
    rcases execDbgByte_cases index s with ⟨hout, he⟩ | ⟨_, he⟩ <;> cases he.symm.trans h
    · exact ⟨index, rfl, hout⟩
    · trivial
  | size => cases h; trivial
  | clear => cases h; trivial
  | dbgState => cases h; trivial

/-- Where an error's cause is there, the command answers with it. -/
theorem exec_of_cause {st : Status} (herr : st ≠ .ok) (hcause : Cause s i st) :
    exec i s = .next (s.respond st 0) := by
  cases st with
  | ok => exact absurd rfl herr
  | errIllegal => exact hcause.elim
  | errWidth =>
    obtain ⟨bits, hw, hi⟩ := hcause
    exact exec_of_tooWide hw (by simpa using hi)
  | errRange =>
    obtain ⟨index, rfl, hout⟩ := hcause
    exact execDbgByte_out_of_range hout
  | errAlloc =>
    obtain ⟨n, rfl, h0, hv, hfull, hmax⟩ := hcause
    exact execWrite_beyond_maxBytes h0 hv hfull hmax

/-- A command answers with an error exactly for its cause. -/
theorem status_eq_iff_cause {t : State} (h : exec i s = .next t) {st : Status} (herr : st ≠ .ok) :
    t.rspStatus = st ↔ Cause s i st := by
  constructor
  · rintro rfl
    exact cause_of_exec h
  · intro hcause
    cases (exec_of_cause herr hcause).symm.trans h
    rfl

end causes

/-- Settles O47: an ILLEGAL word answers before any command runs; a word that decodes answers by its command's causes. -/
theorem statusCodesAndTheirSources : Obligations.StatusCodesAndTheirSources := by
  unfold Obligations.StatusCodesAndTheirSources
  refine ⟨⟨rfl, rfl, rfl, rfl, rfl, fun st => by cases st <;> decide⟩, fun c s t h => ?_⟩
  rcases finish_cases s c with ⟨i, hdec, hrun⟩ | ⟨e, hill, hraise⟩
  · have hexec := hrun.symm.trans h
    have hlegal : ¬ IllegalWord c.word := by
      rw [illegalWord_iff_decode_error, hdec]
      exact nofun
    simp only [hdec, Except.ok.injEq]
    exact ⟨(status_eq_iff_cause hexec (st := .errIllegal) nofun).trans (iff_of_false id hlegal),
      status_eq_iff_cause hexec nofun, status_eq_iff_cause hexec nofun, status_eq_iff_cause hexec nofun⟩
  · cases hraise.symm.trans h
    have hillegal : IllegalWord c.word := (illegalWord_iff_decode_error c.word).mpr ⟨e, hill⟩
    simp [hill, hillegal]

end Sys2Proof.Proofs

/-! Proofs of the family "other", part 6: the invariants of R21, from reset on and through every edge. -/

namespace Sys2Proof.Proofs

open Sys2Proof.Machine
open Sys2Proof.Laws

/-! ## Reset -/

/-- The state after reset is empty, in canonical form, and its capacity is the first legal one. -/
theorem inv_resetWith {cfg : Config} (hwf : cfg.Wf) (ins : List PortIn) (bc : List Nat) :
    (State.resetWith cfg ins bc).Inv := by
  have ⟨hinit, hmax, _⟩ := hwf
  have hpos : 0 < cfg.initBytes * 8 := by omega
  have hsize : (State.resetWith cfg ins bc).size = 0 := size_of_empty rfl rfl
  refine inv_of_checks _ 0 ⟨hwf, ⟨?_, ?_⟩, hpos, hpos, nofun, ?_, rfl, rfl, Nat.two_pow_pos _, fun _ => rfl,
    Nat.two_pow_pos _, nofun⟩
  · rw [resetWith_cap, resetWith_cfg, pow_zero, Nat.mul_one]
  · rw [resetWith_cap, resetWith_cfg]
    omega
  · rw [hsize]
    exact Nat.zero_le _

/-- Settles O3: the reset state of any well-formed configuration, that of `State.reset` among them. -/
theorem resetMeetsInvariants : Obligations.ResetMeetsInvariants := by
  unfold Obligations.ResetMeetsInvariants
  exact ⟨fun _ ins bc hwf => inv_resetWith hwf ins bc, inv_resetWith (by decide) [] []⟩

/-! ## The bus (R7) -/

/-- R86: a field of at most VW bits fits the bus. -/
theorem oldest_lt_bus {s : State} {n : Nat} (hv : n ≤ s.cfg.vw) : s.oldest n < 2 ^ s.cfg.vw := by
  have hwidth : s.clamped n ≤ s.cfg.vw := by
    rw [clamped_natCast]
    exact (Nat.min_le_left n s.size).trans hv
  exact (field_lt ..).trans_le (Nat.pow_le_pow_right (by decide) hwidth)

/-- R58: what the host drives is sampled modulo the width of the bus. -/
theorem sampled_fits (s : State) (p : PortIn) : (s.sampled p).value < 2 ^ s.cfg.vw :=
  Nat.mod_lt _ (Nat.two_pow_pos _)

/-! ## The effects of the commands -/

section effects

variable {s : State} (h : s.Inv)

include h

/-- R87: READ moves RC within the capacity. -/
theorem inv_advance (n : Nat) : (s.advance n).Inv :=
  { h with
    rcInRange := Nat.mod_lt _ (cap_pos h)
    fullCursors := nofun
    sizeBound := size_of_not_full (advance_full s n) ▸ (Nat.mod_lt _ (cap_pos h)).le }

/-- R68: CLEAR moves RC to WC. -/
theorem inv_cleared : s.cleared.Inv :=
  { h with
    rcInRange := h.wcInRange
    fullCursors := nofun
    sizeBound := by rw [cleared_size]; exact Nat.zero_le _ }

/-- R81, R83, R84: a field that fits stays within the storage, and FULL says that the cursors meet. -/
theorem inv_append {n : Nat} (v : Nat) (h0 : 0 < n) (hfit : n + s.size ≤ s.cap) : (s.append n v).Inv :=
  { h with
    wcInRange := Nat.mod_lt _ (cap_pos h)
    fullCursors := fun hf => ((append_full_iff s n v).mp hf).symm
    sizeBound := (append_size v h hfit h0).trans_le hfit
    storeWf := setField_wf _ _ _ _ h.storeWf
    storeWithin := setField_within h.storeWf (cap_pos h) (cap_mod_eight h) h.storeWithin }

/-- Growth to a capacity that is again a legal one. -/
theorem inv_growTo {newCap : Nat} (hc : 2 * s.cap ≤ newCap) (hlegal : LegalCap s.cfg newCap) (h8 : newCap % 8 = 0) :
    (s.growTo newCap).Inv := by
  have hshaped := shaped_of_inv h
  have hlt := offset_add_size_lt hshaped hc
  exact { h with
    legalCap := hlegal
    rcInRange := by rw [growTo_rc, growTo_cap]; omega
    wcInRange := by rw [growTo_wc, growTo_cap]; omega
    fullCursors := nofun
    sizeBound := by rw [size_growTo hshaped hc, growTo_cap]; omega
    storeWf := growTo_storeWf s newCap
    storeWithin := growTo_storeWithin s (by omega) h8 }

/-- R71, R72: the target of a growth that is not refused. -/
theorem targetCap_legal {n : Nat} (hfull : s.cap < n + s.size) (halloc : s.targetCap n / 8 ≤ s.cfg.maxBytes) :
    2 * s.cap ≤ s.targetCap n ∧ n + s.size ≤ s.targetCap n ∧ LegalCap s.cfg (s.targetCap n) ∧
      s.targetCap n % 8 = 0 := by
  obtain ⟨m, htarget, h1, hroom, _⟩ := growthTargetIsTheLeastDoubling s n (cap_pos h) hfull
  obtain ⟨k, hk⟩ := h.legalCap.1
  obtain ⟨j, rfl⟩ : ∃ j, m = j + 1 := ⟨m - 1, by omega⟩
  have h8 : s.cap * 2 ^ (j + 1) % 8 = 0 := by
    rw [Nat.mul_mod, cap_mod_eight h, Nat.zero_mul, Nat.zero_mod]
  have htwice : 2 * s.cap ≤ s.cap * 2 ^ (j + 1) := by
    have := Nat.le_mul_of_pos_right (2 * s.cap) (Nat.two_pow_pos j)
    rw [pow_succ]
    linarith
  rw [htarget] at halloc ⊢
  refine ⟨htwice, hroom, ⟨⟨k + (j + 1), by rw [hk, pow_add 2 k, Nat.mul_assoc]⟩, by omega⟩, h8⟩

/-- A growth that is not refused keeps the invariants and makes room for the field (R71 to R77). -/
theorem inv_growTo_targetCap {n : Nat} (hfull : s.cap < n + s.size) (halloc : s.targetCap n / 8 ≤ s.cfg.maxBytes) :
    (s.growTo (s.targetCap n)).Inv ∧ n + (s.growTo (s.targetCap n)).size ≤ (s.growTo (s.targetCap n)).cap := by
  obtain ⟨htwice, hroom, hlegal, h8⟩ := targetCap_legal h hfull halloc
  refine ⟨inv_growTo h htwice hlegal h8, ?_⟩
  rwa [size_growTo (shaped_of_inv h) htwice]

theorem inv_effect {i : Instr} {b : State} (heff : Effect i s b) : b.Inv := by
  cases heff with
  | unchanged => exact h
  | advanced n => exact inv_advance h n
  | cleared => exact inv_cleared h
  | appended n _ h0 _ hfit => exact inv_append h s.operand h0 hfit
  | grown n _ h0 _ hfull halloc =>
    obtain ⟨hgrown, hfit⟩ := inv_growTo_targetCap h hfull halloc
    exact inv_append hgrown s.operand h0 hfit

/-! ## The response registers (R25, R99) -/

theorem inv_respond {st : Status} {r : Nat} (hr : r < 2 ^ s.cfg.vw) (herr : st ≠ .ok → r = 0) :
    (s.respond st r).Inv :=
  { h with
    resultFits := hr
    errorResult := herr
    operandFits := Nat.two_pow_pos _
    busySilent := nofun }

/-- R7: VW is at least 512. -/
theorem two_pow_le_bus {k : Nat} (hk : k ≤ 512) : 2 ^ k ≤ 2 ^ s.cfg.vw := by
  obtain ⟨_, _, _, hvw, _⟩ := h.config
  exact Nat.pow_le_pow_right (by decide) (hk.trans hvw)

theorem size_lt_bus : s.size < 2 ^ s.cfg.vw :=
  calc s.size ≤ 2 ^ 31 := h.sizeBound.trans (cap_le_two_pow_31 h)
    _ < 2 ^ 32 := by decide
    _ ≤ 2 ^ s.cfg.vw := two_pow_le_bus h (by decide)

/-- R91: the packed word has 97 bits. -/
theorem packed_lt_bus : s.packed < 2 ^ s.cfg.vw := by
  have hcap := cap_le_two_pow_31 h
  have hrc := h.rcInRange
  have hwc := h.wcInRange
  have hfull := Bool.toNat_le s.full
  have hpacked : s.packed < 2 ^ 97 := by
    unfold State.packed
    omega
  exact hpacked.trans_le (two_pow_le_bus h (by decide))

/-- R25: every result is VW bits wide. -/
theorem exec_result_fits {i : Instr} {t : State} (hexec : exec i s = .next t) : t.rspResult < 2 ^ s.cfg.vw := by
  have hzero : 0 < 2 ^ s.cfg.vw := Nat.two_pow_pos _
  cases i with
  | write bits =>
    rcases execWrite_cases bits s with ⟨_, he⟩ | ⟨_, he⟩ | ⟨n, rfl, _, _, ⟨_, he⟩ | ⟨_, _, he⟩ | ⟨_, _, he⟩⟩
    all_goals
      cases he.symm.trans hexec
      exact hzero
  | read bits =>
    rcases execRead_cases bits s with ⟨_, he⟩ | ⟨_, he⟩ | ⟨n, rfl, _, hv, he⟩ <;> cases he.symm.trans hexec
    · exact hzero
    · exact hzero
    · exact oldest_lt_bus hv
  | peek bits =>
    rcases execPeek_cases bits s with ⟨_, he⟩ | ⟨_, he⟩ | ⟨n, rfl, _, hv, he⟩ <;> cases he.symm.trans hexec
    · exact hzero
    · exact hzero
    · exact oldest_lt_bus hv
  | dbgByte index =>
    rcases execDbgByte_cases index s with ⟨_, he⟩ | ⟨_, he⟩ <;> cases he.symm.trans hexec
    · exact hzero
    · exact (s.store.read index).isLt.trans_le (two_pow_le_bus h (by decide))
  | size =>
    cases hexec
    exact size_lt_bus h
  | clear =>
    cases hexec
    exact hzero
  | dbgState =>
    cases hexec
    exact packed_lt_bus h

/-- Every command keeps the invariants. -/
theorem inv_exec {i : Instr} {t : State} (hexec : exec i s = .next t) : t.Inv := by
  have hfits := exec_result_fits h hexec
  obtain ⟨b, st, r, heff, hb, herr⟩ := exec_effect i s
  cases hb.symm.trans hexec
  rw [← (environment_of_effect heff).1] at hfits
  exact inv_respond (inv_effect h heff) hfits fun hst => (herr hst).2

theorem inv_finish {c : Command} {t : State} (hfin : s.finish c = .next t) : t.Inv := by
  rcases finish_cases s c with ⟨i, _, hrun⟩ | ⟨_, _, hraise⟩
  · exact inv_exec h (hrun.symm.trans hfin)
  · cases hraise.symm.trans hfin
    exact inv_respond h (Nat.two_pow_pos _) fun _ => rfl

/-! ## The edges -/

/-- A silent edge: another PHASE with an operand that fits, and the environment moved on. -/
theorem inv_silent (p : Phase) (ins : List PortIn) (bc : List Nat)
    (hp : State.operand { s with phase := p } < 2 ^ s.cfg.vw) :
    State.Inv { s with phase := p, rspValid := false, inputs := ins, busyCycles := bc } :=
  { h with
    operandFits := hp
    busySilent := fun _ => rfl }

theorem inv_withEnvironment (ins : List PortIn) (bc : List Nat) : (withEnvironment s ins bc).Inv :=
  { h with }

theorem inv_edge {t : State} (hedge : Edge s t) : t.Inv := by
  cases hedge with
  | reset => exact inv_resetWith h.config ..
  | quiet =>
    exact inv_silent h s.phase _ _ h.operandFits
  | acceptNow _ _ _ _ hfin =>
    exact inv_finish (inv_silent h (.busy (s.sampled s.driven) 0) _ _ (sampled_fits s _)) hfin
  | acceptLater left => exact inv_silent h (.busy (s.sampled s.driven) left) _ _ (sampled_fits s _)
  | waiting c left _ hp =>
    have hfits := h.operandFits
    rw [State.operand, hp] at hfits
    exact inv_silent h (.busy c left) _ _ hfits
  | lastBusy c _ _ hfin => exact inv_finish (inv_withEnvironment h s.inputs.tail s.busyCycles) hfin

end effects

/-- Settles O49: every edge keeps the invariants. -/
theorem stepKeepsInvariants : Obligations.StepKeepsInvariants := by
  unfold Obligations.StepKeepsInvariants
  exact fun _ _ hinv hstep => inv_edge hinv (edge_of_step hstep)

/-! ## The capacity (R29) -/

/-- A capacity doubled some number of times. -/
theorem le_of_doubled {c c' : Nat} (h : ∃ k, c' = c * 2 ^ k) : c ≤ c' := by
  obtain ⟨k, rfl⟩ := h
  exact Nat.le_mul_of_pos_right c (Nat.two_pow_pos k)

/-- Of the effects only growth touches the capacity, and its target is a doubling (R71). -/
theorem cap_doubled_of_effect {i : Instr} {s b : State} (heff : Effect i s b) (hc : 0 < s.cap) :
    ∃ k, b.cap = s.cap * 2 ^ k := by
  cases heff with
  | unchanged => exact ⟨0, (Nat.mul_one _).symm⟩
  | advanced n => exact ⟨0, (Nat.mul_one _).symm⟩
  | cleared => exact ⟨0, (Nat.mul_one _).symm⟩
  | appended n => exact ⟨0, (Nat.mul_one _).symm⟩
  | grown n _ _ _ hfull =>
    obtain ⟨m, htarget, _⟩ := growthTargetIsTheLeastDoubling s n hc hfull
    exact ⟨m, htarget⟩

theorem cap_doubled_of_finish {s t : State} {c : Command} (hfin : s.finish c = .next t) (hc : 0 < s.cap) :
    ∃ k, t.cap = s.cap * 2 ^ k := by
  rcases finish_cases s c with ⟨i, _, hrun⟩ | ⟨_, _, hraise⟩
  · obtain ⟨b, st, r, heff, rfl, _⟩ := effect_of_exec (hrun.symm.trans hfin)
    have hcap := cap_doubled_of_effect heff hc
    exact hcap
  · cases hraise.symm.trans hfin
    exact ⟨0, (Nat.mul_one _).symm⟩

/-- R29: but for reset an edge changes the capacity only where it ends a command. -/
theorem cap_doubled_of_edge {s t : State} (hedge : Edge s t) (hno : s.driven.rst = false) (hc : 0 < s.cap) :
    ∃ k, t.cap = s.cap * 2 ^ k := by
  cases hedge with
  | reset hrst => simp [hno] at hrst
  | quiet => exact ⟨0, (Nat.mul_one _).symm⟩
  | acceptNow _ _ _ _ hfin =>
    have hcap := cap_doubled_of_finish hfin hc
    exact hcap
  | acceptLater => exact ⟨0, (Nat.mul_one _).symm⟩
  | waiting => exact ⟨0, (Nat.mul_one _).symm⟩
  | lastBusy c _ _ hfin =>
    have hcap := cap_doubled_of_finish hfin hc
    exact hcap

/-- Settles O50: every edge but reset doubles the capacity some number of times, or none. -/
theorem capacityOnlyDoubles : Obligations.CapacityOnlyDoubles := by
  unfold Obligations.CapacityOnlyDoubles
  intro s t hinv hno hstep
  have hdoubled := cap_doubled_of_edge (edge_of_step hstep) hno (cap_pos hinv)
  exact ⟨le_of_doubled hdoubled, hdoubled⟩

end Sys2Proof.Proofs

/-! Proofs of the family "other", part 7: the stream of occupied bits under READ and WRITE (R81 to R87). -/

namespace Sys2Proof.Proofs

open Sys2Proof.Machine
open Sys2Proof.Laws

/-! ## The stream as a list (R23) -/

theorem length_contents (s : State) : s.contents.length = s.size := by
  simp [State.contents]

theorem getElem_contents (s : State) {i : Nat} (hi : i < s.contents.length) :
    s.contents[i] = s.store.sbit ((s.rc + i) % s.cap) := by
  simp [State.contents]

theorem getElem_fieldBits {n v i : Nat} (hi : i < (fieldBits n v).length) :
    (fieldBits n v)[i] = v.testBit (n - 1 - i) := by
  simp [fieldBits]

/-! ## READ (R87) -/

/-- A buffer that is not full holds as many bits as WC is ahead of RC. -/
theorem size_of_wc {s : State} {S : Nat} (hf : s.full = false) (hr : s.rc < s.cap) (hS : S < s.cap)
    (hw : s.wc = (s.rc + S) % s.cap) : s.size = S := by
  rw [size_of_not_full hf, hw]
  rcases Nat.lt_or_ge (s.rc + S) s.cap with hlt | hge
  · rw [Nat.mod_eq_of_lt hlt, show s.cap + (s.rc + S) - s.rc = S + s.cap by omega, Nat.add_mod_right,
      Nat.mod_eq_of_lt hS]
  · rw [Nat.mod_eq_sub_mod hge, Nat.mod_eq_of_lt (by omega : s.rc + S - s.cap < s.cap),
      show s.cap + (s.rc + S - s.cap) - s.rc = S by omega, Nat.mod_eq_of_lt hS]

section read

variable {s : State} {n : Nat} (h : s.Inv)

include h

theorem size_advance (h0 : 0 < n) : (s.advance n).size = s.size - min n s.size := by
  have hpos := cap_pos h
  have hbound := h.sizeBound
  refine size_of_wc (advance_full s n) (Nat.mod_lt _ hpos) ?_ ?_
  · rw [advance_cap]
    omega
  · rw [advance_wc, advance_rc, advance_cap, clamped_natCast, Nat.mod_add_mod, Nat.add_assoc,
      Nat.add_sub_cancel' (Nat.min_le_right n s.size), wc_after_occupied h]

theorem contents_advance (h0 : 0 < n) : (s.advance n).contents = s.contents.drop n := by
  have hsize := size_advance h h0
  refine List.ext_getElem (by rw [List.length_drop, length_contents, length_contents]; omega) fun i hi hi' => ?_
  rw [length_contents] at hi
  rw [List.getElem_drop, getElem_contents, getElem_contents, advance_store, advance_rc, advance_cap, clamped_natCast,
    Nat.mod_add_mod, Nat.min_eq_left (by omega), Nat.add_assoc]

end read

/-- Settles O27: a READ is a response to `advance`, and its result is a field of the bits it returns. -/
theorem readRemovesWhatItReturns : Obligations.ReadRemovesWhatItReturns := by
  unfold Obligations.ReadRemovesWhatItReturns
  intro s t n hinv h0 hv h
  have hread : execRead n s = .next ((s.advance n).respond .ok (s.oldest n)) := moved_of_pos h0 hv (execRead_cases n s)
  cases hread.symm.trans h
  refine ⟨?_, ?_, ?_⟩
  · rw [respond_contents, contents_advance hinv h0]
  · rw [respond_size, size_advance hinv h0]
  · rw [respond_rspResult, ← clamped_natCast]
    exact field_lt ..

/-! ## The field write (R81, R83) -/

section append

variable {s : State} {n : Nat} (h : s.Inv) (hfit : n + s.size ≤ s.cap)

include h

/-- The field's positions follow the occupied ones (R17, R23). -/
theorem field_position (j : Nat) : (s.wc + j) % s.cap = (s.rc + (s.size + j)) % s.cap := by
  rw [← wc_after_occupied h, Nat.mod_add_mod, Nat.add_assoc]

/-- R83: no other bit is written. -/
theorem sbit_append_other (v : Nat) {p : Nat} (hp : ∀ i, i < n → p ≠ (s.wc + i) % s.cap) :
    (s.append n v).store.sbit p = s.store.sbit p :=
  sbit_setField_other _ h.storeWf hp

include hfit

/-- R81: the field holds the low bits of the value, most significant first. -/
theorem sbit_append_field (v : Nat) {i : Nat} (hi : i < n) :
    (s.append n v).store.sbit ((s.wc + i) % s.cap) = v.testBit (n - 1 - i) := by
  rw [append_store, setField_mod_two_pow, sbit_setField v h.storeWf (by omega) hi]

/-- A field that fits covers no occupied bit. -/
theorem occupied_ne_field {i j : Nat} (hi : i < s.size) (hj : j < n) :
    (s.rc + i) % s.cap ≠ (s.wc + j) % s.cap := by
  rw [field_position h]
  intro heq
  have hij := field_positions_injective (le_refl s.cap) (by omega) (by omega) heq
  omega

theorem contents_append (v : Nat) (h0 : 0 < n) :
    (s.append n v).contents = s.contents ++ fieldBits n (v % 2 ^ n) := by
  have hsize := append_size v h hfit h0
  refine List.ext_getElem ?_ fun i hi hi' => ?_
  · rw [List.length_append, length_contents, length_contents, fieldBits_length, hsize, Nat.add_comm]
  · rw [length_contents, hsize] at hi
    rw [getElem_contents, append_rc, append_cap]
    rcases Nat.lt_or_ge i s.size with hold | hnew
    · rw [List.getElem_append_left (by rwa [length_contents]), getElem_contents,
        sbit_append_other h v fun j hj => occupied_ne_field h hfit hold hj]
    · obtain ⟨j, rfl⟩ : ∃ j, i = s.size + j := ⟨i - s.size, by omega⟩
      have hj : j < n := by omega
      have hlow : decide (n - 1 - j < n) = true := decide_eq_true (by omega)
      rw [List.getElem_append_right (by rw [length_contents]; omega), getElem_fieldBits, length_contents,
        Nat.add_sub_cancel_left, ← field_position h, sbit_append_field h hfit v hj, Nat.testBit_mod_two_pow, hlow,
        Bool.true_and]

end append

/-- Settles O32: WRITE is then a response to `append`. -/
theorem writeThatFitsStoresItsField : Obligations.WriteThatFitsStoresItsField := by
  unfold Obligations.WriteThatFitsStoresItsField
  intro s n hinv h0 hv hfit
  exact ⟨_, execWrite_of_fits h0 hv hfit, rfl, fun _ => sbit_append_field hinv hfit s.operand,
    fun _ => sbit_append_other hinv s.operand⟩

/-! ## WRITE, with or without growth (R70 to R84) -/

/-- A field that fits after the occupied bits leaves them alone also where it wraps: its positions are before the
offset or behind them. -/
theorem wrapped_field_position {k S n cap i : Nat} (hfit : n + S ≤ cap) (hlt : k + S < cap) (hi : i < n) :
    (k + S + i) % cap < k ∨ k + S ≤ (k + S + i) % cap := by
  rcases Nat.lt_or_ge (k + S + i) cap with h | h
  · rw [Nat.mod_eq_of_lt h]
    omega
  · rw [Nat.mod_eq_sub_mod h, Nat.mod_eq_of_lt (by omega)]
    omega

/-- Settles O33: WRITE is then a response to `append` on the grown state, whose bits are those of `growTo` but for the
field. -/
theorem writeThatGrowsRelocatesAndStores : Obligations.WriteThatGrowsRelocatesAndStores := by
  unfold Obligations.WriteThatGrowsRelocatesAndStores
  intro s n m hinv h0 hv hfull hleast hmax
  have htarget : s.targetCap n = s.cap * 2 ^ m := targetCap_eq (cap_pos hinv) hleast h0
  rw [← htarget] at hmax ⊢
  have hshaped := shaped_of_inv hinv
  obtain ⟨htwice, hroom, _⟩ := targetCap_legal hinv hfull hmax
  obtain ⟨hgrown, hfit⟩ := inv_growTo_targetCap hinv hfull hmax
  have hlt := offset_add_size_lt hshaped htwice
  rw [Nat.add_comm (s.rc % 8) s.size]
  refine ⟨_, execWrite_of_grows h0 hv hfull hmax, rfl, fun i hi => ?occupied, fun i hi => ?field,
    fun p hocc hfield => ?rest⟩
  case occupied =>
    refine (sbit_append_other hgrown _ fun j hj heq => ?_).trans (sbit_growTo_occupied hshaped _ hi)
    rw [growTo_wc, growTo_cap, Nat.add_comm s.size] at heq
    have := wrapped_field_position hroom hlt hj
    omega
  case field => exact sbit_append_field hgrown hfit s.operand hi
  case rest =>
    refine (sbit_append_other hgrown _ hfield).trans (sbit_growTo_unoccupied hshaped _ ?_)
    by_contra hin
    exact hocc (p - s.rc % 8) (by omega) (by omega)

/-- A WRITE that answers OK is a field write on a state with the same stream: the one it found, or the grown one. -/
theorem append_of_write_ok {s t : State} {n : Nat} (hinv : s.Inv) (h0 : 0 < n) (hv : n ≤ s.cfg.vw)
    (h : exec (.write n) s = .next t) (hok : t.rspStatus = .ok) :
    ∃ b : State, t = (b.append n s.operand).respond .ok 0 ∧ b.Inv ∧ n + b.size ≤ b.cap ∧ b.size = s.size ∧
      b.contents = s.contents ∧ (b.cap ≠ s.cap → s.cap < n + s.size) := by
  rcases Nat.lt_or_ge s.cap (n + s.size) with hfull | hfit
  · rcases Nat.lt_or_ge s.cfg.maxBytes (s.targetCap n / 8) with hmax | halloc
    · cases (execWrite_beyond_maxBytes h0 hv hfull hmax).symm.trans h
      cases hok
    · cases (execWrite_of_grows h0 hv hfull halloc).symm.trans h
      obtain ⟨htwice, _⟩ := targetCap_legal hinv hfull halloc
      obtain ⟨hgrown, hfit⟩ := inv_growTo_targetCap hinv hfull halloc
      have hshaped := shaped_of_inv hinv
      exact ⟨_, rfl, hgrown, hfit, size_growTo hshaped htwice, contents_growTo hshaped htwice, fun _ => hfull⟩
  · cases (execWrite_of_fits h0 hv hfit).symm.trans h
    exact ⟨s, rfl, hinv, hfit, rfl, rfl, fun hne => absurd rfl hne⟩

/-- Settles O35: the field write on the state with the same stream that `append_of_write_ok` gives. -/
theorem writeAppendsToTheStream : Obligations.WriteAppendsToTheStream := by
  unfold Obligations.WriteAppendsToTheStream
  intro s t n hinv h0 hv h hok
  obtain ⟨b, rfl, hb, hfit, hsize, hcontents, hcap⟩ := append_of_write_ok hinv h0 hv h hok
  refine ⟨?_, ?_, hcap⟩
  · rw [respond_contents, contents_append hb hfit _ h0, hcontents]
  · rw [respond_size, append_size _ hb hfit h0, hsize, Nat.add_comm]

/-- Settles O36: the first reading is R19's, the second is O22 on the state WRITE leaves. -/
theorem writeSetsFullExactlyWhenFilled : Obligations.WriteSetsFullExactlyWhenFilled := by
  unfold Obligations.WriteSetsFullExactlyWhenFilled
  intro s t n hinv h0 hv h hok
  obtain ⟨_, hsize, _⟩ := writeAppendsToTheStream s t n hinv h0 hv h hok
  refine ⟨full_iff_of_write_ok h (by omega) hok, ?_⟩
  rw [← hsize]
  exact (sizeIsCapacityExactlyWhenFull t (inv_exec hinv h)).symm

end Sys2Proof.Proofs

/-! Proofs of the family "other", part 8: the FIFO contract as a whole (R24, R93, R121): what it does not depend on, and
the round trip. -/

namespace Sys2Proof.Proofs

open Sys2Proof.Machine
open Sys2Proof.Laws

/-! ## Unoccupied bits (R24) -/

/-! Each way a command of the contract ends keeps two states the same but for unoccupied bits. -/

section sameStream

variable {s t : State} (h : SameStream s t)

include h

/-- The second state is the first with another storage. -/
theorem eq_withStore_of_sameStream : ∃ m, t = { s with store := m } := ⟨t.store, h.fields⟩

theorem sameStream_respond (st : Status) (r : Nat) : SameStream (s.respond st r) (t.respond st r) := by
  have hocc := h.occupied
  obtain ⟨m, rfl⟩ := eq_withStore_of_sameStream h
  exact ⟨rfl, hocc⟩

theorem oldest_eq_of_sameStream (n : Nat) : t.oldest n = s.oldest n := by
  rw [oldest_eq_bitsValue, oldest_eq_bitsValue, h.occupied]

theorem sameStream_cleared : SameStream s.cleared t.cleared := by
  obtain ⟨m, rfl⟩ := eq_withStore_of_sameStream h
  refine ⟨rfl, ?_⟩
  simp only [State.contents, cleared_size]
  rfl

variable (hs : s.Inv) (ht : t.Inv)

include hs ht

theorem sameStream_advance {n : Nat} (h0 : 0 < n) : SameStream (s.advance n) (t.advance n) := by
  have hocc : (t.advance n).contents = (s.advance n).contents := by
    rw [contents_advance ht h0, contents_advance hs h0, h.occupied]
  obtain ⟨m, rfl⟩ := eq_withStore_of_sameStream h
  exact ⟨rfl, hocc⟩

theorem sameStream_append {n : Nat} (v : Nat) (h0 : 0 < n) (hfit : n + s.size ≤ s.cap) :
    SameStream (s.append n v) (t.append n v) := by
  have hold := h.occupied
  obtain ⟨m, rfl⟩ := eq_withStore_of_sameStream h
  refine ⟨rfl, ?_⟩
  rw [contents_append ht hfit v h0, contents_append hs hfit v h0, hold]

theorem sameStream_growTo {newCap : Nat} (hc : 2 * s.cap ≤ newCap) :
    SameStream (s.growTo newCap) (t.growTo newCap) := by
  have hold := h.occupied
  obtain ⟨m, rfl⟩ := eq_withStore_of_sameStream h
  refine ⟨rfl, ?_⟩
  rw [contents_growTo (shaped_of_inv ht) hc, contents_growTo (shaped_of_inv hs) hc, hold]

end sameStream

/-- Settles O55: both states take the same way, since the checks read no storage, and each way keeps them the same. -/
theorem unoccupiedBitsAreInvisible : Obligations.UnoccupiedBitsAreInvisible := by
  unfold Obligations.UnoccupiedBitsAreInvisible
  intro s t i hs ht h hi
  obtain ⟨m, rfl⟩ := eq_withStore_of_sameStream h
  cases i with
  | write bits =>
    rcases execWrite_cases bits s with
      ⟨hw, he⟩ | ⟨hneg, he⟩ | ⟨n, rfl, h0, hv, ⟨hfit, he⟩ | ⟨hfull, hmax, he⟩ | ⟨hfull, halloc, he⟩⟩
    · exact ⟨_, _, he, execWrite_of_tooWide hw, rfl, sameStream_respond h _ _⟩
    · exact ⟨_, _, he, execWrite_of_nonpos hneg, rfl, sameStream_respond h _ _⟩
    · exact ⟨_, _, he, execWrite_of_fits h0 hv hfit, rfl,
        sameStream_respond (sameStream_append h hs ht s.operand h0 hfit) _ _⟩
    · exact ⟨_, _, he, execWrite_beyond_maxBytes h0 hv hfull hmax, rfl, sameStream_respond h _ _⟩
    · obtain ⟨htwice, _⟩ := targetCap_legal hs hfull halloc
      obtain ⟨hsgrown, hfit⟩ := inv_growTo_targetCap hs hfull halloc
      obtain ⟨htgrown, _⟩ := inv_growTo_targetCap ht hfull halloc
      have hgrown := sameStream_growTo h hs ht htwice
      exact ⟨_, _, he, execWrite_of_grows h0 hv hfull halloc, rfl,
        sameStream_respond (sameStream_append hgrown hsgrown htgrown s.operand h0 hfit) _ _⟩
  | read bits =>
    rcases execRead_cases bits s with ⟨hw, he⟩ | ⟨hneg, he⟩ | ⟨n, rfl, h0, hv, he⟩
    · exact ⟨_, _, he, execRead_of_tooWide hw, rfl, sameStream_respond h _ _⟩
    · exact ⟨_, _, he, execRead_of_nonpos hneg, rfl, sameStream_respond h _ _⟩
    · have hread := moved_of_pos h0 hv (execRead_cases n { s with store := m })
      rw [oldest_eq_of_sameStream h] at hread
      exact ⟨_, _, he, hread, rfl, sameStream_respond (sameStream_advance h hs ht h0) _ _⟩
  | peek bits =>
    rcases execPeek_cases bits s with ⟨hw, he⟩ | ⟨hneg, he⟩ | ⟨n, rfl, h0, hv, he⟩
    · exact ⟨_, _, he, execPeek_of_tooWide hw, rfl, sameStream_respond h _ _⟩
    · exact ⟨_, _, he, execPeek_of_nonpos hneg, rfl, sameStream_respond h _ _⟩
    · have hpeek := moved_of_pos h0 hv (execPeek_cases n { s with store := m })
      rw [oldest_eq_of_sameStream h] at hpeek
      exact ⟨_, _, he, hpeek, rfl, sameStream_respond h _ _⟩
  | size => exact ⟨_, _, rfl, rfl, rfl, sameStream_respond h _ _⟩
  | clear => exact ⟨_, _, rfl, rfl, rfl, sameStream_respond (sameStream_cleared h) _ _⟩
  | dbgByte index => cases hi
  | dbgState => cases hi

/-! ## The round trip (R35, R121) -/

theorem take_append_fieldBits (n v : Nat) (rest : List Bool) : (fieldBits n v ++ rest).take n = fieldBits n v :=
  List.take_left' (fieldBits_length n v)

theorem drop_append_fieldBits (n v : Nat) (rest : List Bool) : (fieldBits n v ++ rest).drop n = rest :=
  List.drop_left' (fieldBits_length n v)

/-- A performed command is `exec` with the command in progress. -/
theorem perform_of_decode {s : State} {c : Command} {i : Instr} (h : decode c.word = .ok i) :
    s.perform c = exec i { s with rspValid := false, phase := .busy c 0 } :=
  finish_of_decode h

theorem inv_inProgress {s : State} {c : Command} (h : s.Inv) (hc : c.value < 2 ^ s.cfg.vw) :
    State.Inv { s with rspValid := false, phase := .busy c 0 } :=
  inv_silent h (.busy c 0) s.inputs s.busyCycles hc

section roundTrip

variable {s t : State} {w : Nat × Nat} (hinv : s.Inv) (hfits : w.1 < 2 ^ w.2) (hwidth : w.2 ≤ s.cfg.vw)

include hwidth

/-- R58: a value below two to its width fits the bus. -/
theorem value_lt_bus (hfits : w.1 < 2 ^ w.2) : w.1 < 2 ^ s.cfg.vw :=
  hfits.trans_le (Nat.pow_le_pow_right (by decide) hwidth)

include hinv

/-- R7, R56: a width on the bus is a count the word can carry. -/
theorem countFits_width : CountFits (w.2 : Int) := by
  obtain ⟨_, _, _, _, hvw⟩ := hinv.config
  unfold CountFits
  omega

theorem decode_writeCommand : decode (writeCommand w).word = .ok (.write (w.2 : Int)) :=
  decodeInvertsEncode _ (decide_eq_true (countFits_width hinv hwidth))

theorem decode_readCommand : decode (readCommand w).word = .ok (.read (w.2 : Int)) :=
  decodeInvertsEncode _ (decide_eq_true (countFits_width hinv hwidth))

include hfits

/-- One write of the round trip: the field follows the old stream, a field of width 0 included. -/
theorem perform_writeCommand (h : s.perform (writeCommand w) = .next t) (hok : t.rspStatus = .ok) :
    t.Inv ∧ t.cfg = s.cfg ∧ t.contents = s.contents ++ fieldBits w.2 w.1 := by
  have hrun := inv_inProgress (c := writeCommand w) hinv (value_lt_bus hwidth hfits)
  have hcfg : t.cfg = s.cfg := (finish_environment h).1
  rw [perform_of_decode (decode_writeCommand hinv hwidth)] at h
  refine ⟨inv_exec hrun h, hcfg, ?_⟩
  rcases Nat.eq_zero_or_pos w.2 with h0 | h0
  · have hnoop : (w.2 : Int) ≤ 0 := by omega
    cases (execWrite_of_nonpos hnoop).symm.trans h
    rw [h0]
    exact (List.append_nil _).symm
  · obtain ⟨hcontents, _⟩ := writeAppendsToTheStream _ t w.2 hrun h0 hwidth h hok
    rw [hcontents]
    exact congrArg (s.contents ++ fieldBits w.2 ·) (Nat.mod_eq_of_lt hfits)

/-- One read of the round trip: the field at the front of the stream comes back and leaves the rest. -/
theorem perform_readCommand {rest : List Bool} (hc : s.contents = fieldBits w.2 w.1 ++ rest) :
    ∃ u, s.perform (readCommand w) = .next u ∧ u.response = { status := .ok, result := w.1 } ∧ u.Inv ∧
      u.cfg = s.cfg ∧ u.contents = rest := by
  obtain ⟨u, hperform, _, _, hcfg, _⟩ := perform_next s (readCommand w)
  have hexec : exec (.read w.2) s = .next u :=
    (exec_of_not_write (fun _ => Instr.noConfusion) s ..).symm.trans
      ((perform_of_decode (decode_readCommand hinv hwidth)).symm.trans hperform)
  refine ⟨u, hperform, ?_, inv_exec hinv hexec, hcfg, ?_⟩
  · rcases Nat.eq_zero_or_pos w.2 with h0 | h0
    · have hnoop : (w.2 : Int) ≤ 0 := by omega
      have hzero : w.1 = 0 := by rw [h0] at hfits; omega
      cases (execRead_of_nonpos hnoop).symm.trans hexec
      rw [respond_response, hzero]
    · cases (execRead_of_pos h0 hwidth).symm.trans hexec
      rw [respond_response, hc, take_append_fieldBits, bitsValue_fieldBits, Nat.mod_eq_of_lt hfits]
  · rcases Nat.eq_zero_or_pos w.2 with h0 | h0
    · have hnoop : (w.2 : Int) ≤ 0 := by omega
      cases (execRead_of_nonpos hnoop).symm.trans hexec
      rw [h0] at hc
      exact hc
    · obtain ⟨hdrop, _⟩ := readRemovesWhatItReturns s u w.2 hinv h0 hwidth hexec
      rw [hdrop, hc, drop_append_fieldBits]

end roundTrip

/-- A program that runs through has performed its first command and run the others after it. -/
theorem runProgram_cons_eq_some {s t : State} {c : Command} {cs : List Command} {rs : List Response}
    (h : s.runProgram (c :: cs) = some (rs, t)) :
    ∃ u rs', s.perform c = .next u ∧ u.runProgram cs = some (rs', t) ∧ rs = u.response :: rs' := by
  obtain ⟨u, hperform, _⟩ := perform_next s c
  rw [runProgram_cons cs hperform, Option.map_eq_some_iff] at h
  obtain ⟨⟨rs', t'⟩, hrest, heq⟩ := h
  cases heq
  exact ⟨u, rs', hperform, hrest, rfl⟩

/-- The bits of a list of fields in stream order. -/
def fieldsBits (ws : List (Nat × Nat)) : List Bool := ws.flatMap (fun w => fieldBits w.2 w.1)

theorem fieldsBits_cons (w : Nat × Nat) (ws : List (Nat × Nat)) :
    fieldsBits (w :: ws) = fieldBits w.2 w.1 ++ fieldsBits ws := List.flatMap_cons

/-- Writes that all answer OK leave the old stream followed by their fields. -/
theorem contents_after_writes {s t : State} {ws : List (Nat × Nat)} {rs : List Response} (hinv : s.Inv)
    (hws : ∀ w ∈ ws, w.1 < 2 ^ w.2 ∧ w.2 ≤ s.cfg.vw) (h : s.runProgram (ws.map writeCommand) = some (rs, t))
    (hok : ∀ r ∈ rs, r.status = .ok) :
    t.Inv ∧ t.cfg = s.cfg ∧ t.contents = s.contents ++ fieldsBits ws := by
  induction ws generalizing s rs with
  | nil =>
    cases h
    exact ⟨hinv, rfl, (List.append_nil _).symm⟩
  | cons w ws ih =>
    obtain ⟨u, rs', hperform, hrest, rfl⟩ := runProgram_cons_eq_some h
    obtain ⟨hfits, hwidth⟩ := hws w (List.mem_cons_self ..)
    have hfirst : u.rspStatus = .ok := hok u.response (List.mem_cons_self ..)
    obtain ⟨huinv, hucfg, hu⟩ := perform_writeCommand hinv hfits hwidth hperform hfirst
    obtain ⟨htinv, htcfg, ht⟩ := ih huinv (fun w' hw' => hucfg ▸ hws w' (List.mem_cons_of_mem _ hw')) hrest
      fun r hr => hok r (List.mem_cons_of_mem _ hr)
    exact ⟨htinv, htcfg.trans hucfg, by rw [ht, hu, fieldsBits_cons, List.append_assoc]⟩

/-- Reads of the widths the stream was written with answer the values and empty it. -/
theorem reads_return_fields {s : State} {ws : List (Nat × Nat)} (hinv : s.Inv)
    (hws : ∀ w ∈ ws, w.1 < 2 ^ w.2 ∧ w.2 ≤ s.cfg.vw) (hc : s.contents = fieldsBits ws) :
    ∃ u, s.runProgram (ws.map readCommand) = some (ws.map (fun w => { status := .ok, result := w.1 }), u) ∧
      u.contents = [] := by
  induction ws generalizing s with
  | nil => exact ⟨s, rfl, hc⟩
  | cons w ws ih =>
    obtain ⟨hfits, hwidth⟩ := hws w (List.mem_cons_self ..)
    obtain ⟨t, hperform, hresponse, htinv, htcfg, ht⟩ :=
      perform_readCommand hinv hfits hwidth (hc.trans (fieldsBits_cons w ws))
    obtain ⟨u, hrest, hu⟩ := ih htinv (fun w' hw' => htcfg ▸ hws w' (List.mem_cons_of_mem _ hw')) ht
    refine ⟨u, ?_, hu⟩
    rw [List.map_cons, runProgram_cons _ hperform, hrest, hresponse]
    rfl

theorem contents_eq_nil_iff (s : State) : s.contents = [] ↔ s.size = 0 := by
  rw [← List.length_eq_zero_iff, length_contents]

/-- Settles O56: after the writes the stream is their fields and nothing else, and the reads take them off again. -/
theorem writesComeBackInOrder : Obligations.WritesComeBackInOrder := by
  unfold Obligations.WritesComeBackInOrder
  intro s t ws rs hinv hempty hws h hok
  obtain ⟨htinv, htcfg, ht⟩ := contents_after_writes hinv hws h hok
  rw [(contents_eq_nil_iff s).mpr hempty, List.nil_append] at ht
  obtain ⟨u, hreads, hu⟩ := reads_return_fields htinv (fun w hw => htcfg ▸ hws w hw) ht
  exact ⟨u, hreads, (contents_eq_nil_iff u).mp hu⟩

end Sys2Proof.Proofs
